-- ==== Sys2Proof/Word.lean ====
section
/-! DEFINITION. The bit-vector types the CORE's registers, buffer bytes and characters are made of. -/

namespace Sys2Proof

/-- A buffer byte or one character of a text operand (R7, R55: `CHARW` is 8). -/
abbrev Byte := BitVec 8

/-- The width of an encoded value (R6: `VALW` is 32). -/
abbrev Word := BitVec 32

/-- The width of `CUR.byteIndex` and of `FIDX` (R6: `IDXW` is 16; R12). -/
abbrev Index := BitVec 16

/-- A text operand: one byte a character, first character first (R54, R55). -/
abbrev Text := List Byte

end Sys2Proof
end

