-- ==== Sys2Proof/Config.lean ====
section
/-! DEFINITION. What R6 fixes, what R6 leaves as parameters of the hardware, and the free values. -/

namespace Sys2Proof

/-- R6: `BLOCK`, bytes in a block. -/
def Config.block : Nat := 32

/-- R6: `LENMAX`, the largest bit length of a field. -/
def Config.lenMax : Nat := 32

/-- R6: `TERMBYTE`, the terminator. -/
def Config.termByte : Nat := 0xFF

/-- R6 and R87: `EPOCH`, the day count of 1998-01-01. -/
def Config.epoch : Int := 10227

/-- R6: the largest number of blocks. -/
def Config.nblkMax : Nat := 2047

/-- R6, R83: `ROUND_TIE`, which integer `round` gives for an exact half. -/
inductive RoundTie where
  | halfUp
  | halfEven
  | halfAway
  deriving DecidableEq, Repr

/-- R160: `INITPAT` as plain data: the bytes named in `marks` (the first entry for an index counts), every other
byte `fill`. Every function from 0..`BUFSIZE`-1 to a byte is one of these. -/
structure InitPat where
  fill : Byte
  marks : List (Nat × Byte)
  deriving DecidableEq, Repr

/-- R6: the open parameters of the hardware. No command changes them (R20). -/
structure Params where
  /-- `NBLK`, 1 to 2047. -/
  nblk : Nat
  /-- `INITPAT`. -/
  initPat : InitPat
  /-- `ROUND_TIE`. -/
  roundTie : RoundTie
  /-- `EPS_LN`, not negative. DESIGN CHOICE (log entry 5): a rational number, of which there is one that acts on every
  packet like a given real one (`rational_eps_acts_like_real` in Laws/EpsLn.lean). -/
  epsLn : Rat
  deriving DecidableEq, Repr

/-- The ranges R6 gives the parameters. -/
abbrev Params.wf (p : Params) : Prop := 1 ≤ p.nblk ∧ p.nblk ≤ Config.nblkMax ∧ 0 ≤ p.epsLn

/-- R6's defaults: the all-zero pattern, `half_up`, `EPS_LN` 0. DESIGN CHOICE (log entry 3): one block, for which
R6 gives no default. -/
def Params.default : Params where
  nblk := 1
  initPat := { fill := 0, marks := [] }
  roundTie := .halfUp
  epsLn := 0

/-- Free value (R24, U4 of 93_implementation_defined.md): what buffer byte `i` holds after the `n`-th hardware reset,
until a command writes it. It has no body, so nothing is known of it (log entry 2). -/
opaque Config.unspecifiedByte : Nat → Nat → Byte

/-- Free value (R95, U11 of 93_implementation_defined.md): the `n`-th choice among the results that `EPS_LN` allows
`CVT.CONRELRES`. It has no body, so nothing is known of it (log entry 6). -/
opaque Config.lnChoice : Nat → Nat

end Sys2Proof
end

