-- ==== Sys2Proof/Syntax.lean ====
section
/-! DEFINITION. The thirteen commands of the CORE (R3, R56), one constructor for each row of the opcode table. -/

namespace Sys2Proof

/-- A command with its operands (R51 to R54, R59). `raw` is the Field Record's raw value, `rng` its range spec. -/
inductive Instr where
  /-- `FILL`, format N, `OP` 0x01 (R161). -/
  | fill
  /-- `CRST`, format N, `OP` 0x02 (R123). -/
  | crst
  /-- `LDV imm32`, format I, `OP` 0x03 (R124). -/
  | ldv (imm : Word)
  /-- `CVT.UNINT raw`, format S, tag 0 (R85). -/
  | cvtUnint (raw rng : Text)
  /-- `CVT.CHR5 raw`, format S, tag 1 (R86). -/
  | cvtChr5 (raw rng : Text)
  /-- `CVT.DATE raw`, format S, tag 2 (R89). -/
  | cvtDate (raw rng : Text)
  /-- `CVT.CONRES raw, rng`, format S, tag 3 (R91). -/
  | cvtConres (raw rng : Text)
  /-- `CVT.CONRELRES raw, rng`, format S, tag 4 (R94). -/
  | cvtConrelres (raw rng : Text)
  /-- `CVT.SINGLE raw`, format S, tag 5 (R96). -/
  | cvtSingle (raw rng : Text)
  /-- `CVT.UNREC6` (`tag7` false) and `CVT.UNREC7` (`tag7` true), format S, tags 6 and 7 (R97). -/
  | cvtUnrec (tag7 : Bool) (raw rng : Text)
  /-- `APPEND len`, format L, `OP` 0x20 (R127). -/
  | append (len : BitVec 6)
  /-- `TERM`, format N, `OP` 0x21 (R129). -/
  | term
  /-- `CSUM`, format N, `OP` 0x30 (R151). -/
  | csum
  deriving DecidableEq, Repr

end Sys2Proof
end

