-- ==== Sys2Proof/WellFormed.lean ====
section
/-! DEFINITION. Which commands a packet can carry: the operand ranges of R52 and R54. -/

namespace Sys2Proof

/-- A counted string of R54 holds 0 to 255 characters. -/
abbrev Text.fits (t : Text) : Bool := decide (t.length ≤ 255)

/-- R52: "legal values 1..32"; every other `len` is a reserved operand (R58). -/
abbrev lenLegal (len : BitVec 6) : Bool := decide (1 ≤ len.toNat ∧ len.toNat ≤ 32)

/-- The commands that have an encoding which is not reserved (R51 to R54, R58). -/
def Instr.wf : Instr → Bool
  | .fill => true
  | .crst => true
  | .ldv _ => true
  | .cvtUnint raw rng => Text.fits raw && Text.fits rng
  | .cvtChr5 raw rng => Text.fits raw && Text.fits rng
  | .cvtDate raw rng => Text.fits raw && Text.fits rng
  | .cvtConres raw rng => Text.fits raw && Text.fits rng
  | .cvtConrelres raw rng => Text.fits raw && Text.fits rng
  | .cvtSingle raw rng => Text.fits raw && Text.fits rng
  | .cvtUnrec _ raw rng => Text.fits raw && Text.fits rng
  | .append len => lenLegal len
  | .term => true
  | .csum => true

end Sys2Proof
end

