-- ==== Sys2Proof/Decode.lean ====
section
/-! DEFINITION. The decoder of command packets, total on any bytes (R50 to R58), and after it the encoder. -/

namespace Sys2Proof

/-- Why a byte string is not a command packet: the reserved encodings that R58 lists, one by one. -/
inductive Reserved where
  /-- An `OP` that R56 does not list (U1). -/
  | opcode
  /-- A non-zero `ARG` in formats N, I and S (U2). -/
  | arg
  /-- A non-zero `H[7:6]` in format L (U2). -/
  | highBits
  /-- `len` 0 or 33 to 63 in format L (U2). -/
  | len
  /-- The packet ends before its payload is complete (U2). -/
  | truncated
  deriving DecidableEq, Repr

/-- What a decoder gives: a command and the bytes after its packet, or the verdict "reserved" (R58). -/
abbrev Decoded := Except Reserved (Instr × List Byte)

/-- R54: one counted string, its length byte first. -/
def takeText : List Byte → Except Reserved (Text × List Byte)
  | [] => .error .truncated
  | n :: bs => if n.toNat ≤ bs.length then .ok (bs.take n.toNat, bs.drop n.toNat) else .error .truncated

/-- R54: the two strings of format S, `raw` then `rng`. -/
def takeTexts (bs : List Byte) : Except Reserved (Text × Text × List Byte) :=
  match takeText bs with
  | .error e => .error e
  | .ok (raw, bs) =>
    match takeText bs with
    | .error e => .error e
    | .ok (rng, bs) => .ok (raw, rng, bs)

/-- R51: format N, no payload. -/
def decodeN (i : Instr) (arg : Byte) (bs : List Byte) : Decoded :=
  if arg = 0 then .ok (i, bs) else .error .arg

/-- R52: format L, `len` in `H[5:0]` under two zero bits. -/
def decodeL (arg : Byte) (bs : List Byte) : Decoded :=
  if arg.extractLsb' 6 2 ≠ 0 then .error .highBits
  else if lenLegal (arg.extractLsb' 0 6) then .ok (.append (arg.extractLsb' 0 6), bs)
  else .error .len

/-- R53: format I, a four-byte payload, most significant byte first. -/
def decodeI (arg : Byte) (bs : List Byte) : Decoded :=
  if arg ≠ 0 then .error .arg
  else
    match bs with
    | p0 :: p1 :: p2 :: p3 :: bs => .ok (.ldv (p0 ++ p1 ++ p2 ++ p3), bs)
    | _ => .error .truncated

/-- R54: format S. `make` builds the command of the packet's tag. -/
def decodeS (make : Text → Text → Instr) (arg : Byte) (bs : List Byte) : Decoded :=
  if arg ≠ 0 then .error .arg
  else
    match takeTexts bs with
    | .error e => .error e
    | .ok (raw, rng, bs) => .ok (make raw rng, bs)

/-- The opcode map of R56, and R58 for what it does not list. -/
def decodeHeader (op arg : Byte) (bs : List Byte) : Decoded :=
  if op = 0x01 then decodeN .fill arg bs
  else if op = 0x02 then decodeN .crst arg bs
  else if op = 0x03 then decodeI arg bs
  else if op = 0x10 then decodeS .cvtUnint arg bs
  else if op = 0x11 then decodeS .cvtChr5 arg bs
  else if op = 0x12 then decodeS .cvtDate arg bs
  else if op = 0x13 then decodeS .cvtConres arg bs
  else if op = 0x14 then decodeS .cvtConrelres arg bs
  else if op = 0x15 then decodeS .cvtSingle arg bs
  else if op = 0x16 then decodeS (.cvtUnrec false) arg bs
  else if op = 0x17 then decodeS (.cvtUnrec true) arg bs
  else if op = 0x20 then decodeL arg bs
  else if op = 0x21 then decodeN .term arg bs
  else if op = 0x30 then decodeN .csum arg bs
  else .error .opcode

/-- R50: the decoder. It reads one packet from the front of the bytes, `OP` first and `ARG` second. -/
def decode : List Byte → Decoded
  | op :: arg :: bs => decodeHeader op arg bs
  | _ => .error .truncated

/-- R54: a counted string as it stands in a packet. DESIGN CHOICE (log entry 22): of a text of more than 255 characters,
which R54 and U17 say cannot be sent, the length byte is cut to 8 bits. -/
def encodeText (t : Text) : List Byte := BitVec.ofNat 8 t.length :: t

/-- R54: a packet of format S. -/
def encodeS (op : Byte) (raw rng : Text) : List Byte := op :: 0 :: (encodeText raw ++ encodeText rng)

/-- The packet of a command, from the same tables (R51 to R54, R56). -/
def encode : Instr → List Byte
  | .fill => [0x01, 0]
  | .crst => [0x02, 0]
  | .ldv imm =>
    [0x03, 0, imm.extractLsb' 24 8, imm.extractLsb' 16 8, imm.extractLsb' 8 8, imm.extractLsb' 0 8]
  | .cvtUnint raw rng => encodeS 0x10 raw rng
  | .cvtChr5 raw rng => encodeS 0x11 raw rng
  | .cvtDate raw rng => encodeS 0x12 raw rng
  | .cvtConres raw rng => encodeS 0x13 raw rng
  | .cvtConrelres raw rng => encodeS 0x14 raw rng
  | .cvtSingle raw rng => encodeS 0x15 raw rng
  | .cvtUnrec tag7 raw rng => encodeS (if tag7 then 0x17 else 0x16) raw rng
  | .append len => [0x20, (0 : BitVec 2) ++ len]
  | .term => [0x21, 0]
  | .csum => [0x30, 0]

/-- How many payload bytes the bytes of a table word need. A row without payload bits has zeros for its payload, and
then no payload is longer than the four bytes of format I (R53); otherwise the longest payload is two strings of 255
characters with their length bytes (R54). -/
def payloadMax (nbits : Nat) : Nat := if nbits ≤ 16 then 4 else (1 + 255) + (1 + 255)

/-- The bytes of an instruction whose bits the opcode table numbers as `w`: the 16-bit header word is sent high byte
first (R50), payload byte `k` is bits `16 + 8k` and up, and every bit from `nbits` on is 0. -/
def tableBytes (nbits w : Nat) : List Byte :=
  let w := w % 2 ^ nbits
  BitVec.ofNat 8 (w / 2 ^ 8) :: BitVec.ofNat 8 w ::
    (List.range (payloadMax nbits)).map fun k => BitVec.ofNat 8 (w / 2 ^ (16 + 8 * k))

/-- The instruction that the decoder reads from those bytes. -/
def decodeTableWord (nbits w : Nat) : Option Instr :=
  match decode (tableBytes nbits w) with
  | .ok (i, _) => some i
  | .error _ => none

/-- The packet at the front of those bytes, without the zeros after it (all of them where there is no packet). -/
def tablePacket (nbits w : Nat) : List Byte :=
  let bs := tableBytes nbits w
  match decode bs with
  | .ok (_, rest) => bs.take (bs.length - rest.length)
  | .error _ => bs

end Sys2Proof
end

