-- ==== Sys2Proof/Machine/State.lean ====
section
/-! DEFINITION. The state of the CORE (R10 to R24), why a step can stop, and the state after reset. -/

namespace Sys2Proof.Machine

/-- The four values of the 2-bit status register `ERR` (R17). -/
inductive Err where
  /-- Code 0, `NONE`. -/
  | none
  /-- Code 1. -/
  | parseError
  /-- Code 2. -/
  | unrecognizedType
  /-- Code 3. -/
  | bufferOverflow
  deriving DecidableEq, Repr

/-- `CUR` (R14, R15): where the next free bit is. -/
structure Cursor where
  byteIndex : Index
  bitOffset : BitVec 3
  deriving DecidableEq, Repr

/-- What the host does to the CORE (R50, R197, R210). -/
inductive HostAct where
  /-- It sends bytes: one command packet, or several one after the other (R50). -/
  | send (bytes : List Byte)
  /-- It resets the CORE, between two commands (R210). -/
  | reset
  deriving DecidableEq, Repr

/-- A memory: byte index and byte, in rising order of the indices, each index at most once. An index that is not
listed holds no known value (R24); `Memory.get?` in Machine/Ops.lean says what that means. -/
abbrev Memory := List Host.Cell

/-- Why the machine stops with a fault. The errors of R180 are not among them: the CORE takes those (R186). -/
inductive Fault where
  /-- `MemRead` of an index at or beyond `BUFSIZE`, an address R8 and R30 do not have. Raised by `APPEND` alone, and
  only in a state no run reaches (R16, R38). Safe: the hardware cannot come here. -/
  | readOutsideBuffer
  deriving DecidableEq, Repr

/-- Why the model gives a command no meaning. -/
inductive Refusal where
  /-- A command whose meaning is not written yet; raised by `exec`'s arms alone. Safe. -/
  | notModelled (mnemonic : String)
  /-- `APPEND` while `VAL` holds no value: "if VAL holds no value then refuse" (R127, U9). Raised by `APPEND`. Safe. -/
  | valAbsent
  /-- A conversion whose integer is outside `-2^31 .. 2^32 - 1`: "the command is refused" (R84, U3). Raised by
  `CVT.UNINT`, `CVT.CONRES` and `CVT.CONRELRES`. Safe. -/
  | resultOutOfRange
  /-- A reserved encoding: "a model refuses it and gives it no meaning" (R58, U1, U2). Raised by the step's decoder,
  and by `APPEND` of a `len` that no packet carries. Safe. -/
  | reservedEncoding (why : Reserved)
  deriving DecidableEq, Repr

/-- The whole state (R10), the parameters of R6, the acts of the host that the CORE has not taken yet, and the two
counters the free values are drawn with. -/
structure State where
  /-- `VAL` (R11). `none`: it holds no value. -/
  val : Option Word
  /-- `FIDX` (R12, R13). -/
  fidx : Index
  /-- `CUR` (R14, R15, R16). -/
  cur : Cursor
  /-- `ERR` (R17). -/
  err : Err
  /-- `BUF` (R19), the bytes written since reset. -/
  buf : Memory
  /-- MODEL'S OWN: the parameters of R6, which no command changes. -/
  params : Params
  /-- MODEL'S OWN: what the host has yet to do to the CORE, first act first (R50, R210). -/
  host : List HostAct
  /-- MODEL'S OWN: how many free choices of R95 have been drawn. -/
  draws : Nat
  /-- MODEL'S OWN: how many hardware resets there have been; it selects the unspecified bytes of R24. -/
  resets : Nat
  deriving DecidableEq, Repr

/-- R24, R210: the state after a hardware reset, with R6's default parameters and a host that has sent nothing. -/
def State.reset : State where
  val := none
  fidx := 0
  cur := { byteIndex := 1, bitOffset := 0 }
  err := .none
  buf := []
  params := Params.default
  host := []
  draws := 0
  resets := 0

end Sys2Proof.Machine
end

