-- ==== Sys2Proof/Machine/Ops.lean ====
section
/-! DEFINITION. The operations the commands share: the buffer, raising an error, the end of a command, the cursor and
the packer's writes. -/

namespace Sys2Proof.Machine

/-! ## The buffer as data -/

/-- What the memory lists for index `i`; `none` for an index that is not listed. -/
def Memory.get? : Memory → Nat → Option Byte
  | [], _ => none
  | c :: m, i => if c.1 = i then some c.2 else Memory.get? m i

/-- The memory with `b` at index `i`, the rising order kept. -/
def Memory.put : Memory → Nat → Byte → Memory
  | [], i, b => [(i, b)]
  | c :: m, i, b =>
    if i < c.1 then (i, b) :: c :: m
    else if i = c.1 then (i, b) :: m
    else c :: Memory.put m i b

/-- The canonical form: indices strictly rising. An unlisted index has no value, so no entry can repeat it. -/
abbrev Memory.wf (m : Memory) : Prop := m.Pairwise fun c d => c.1 < d.1

/-- R6: `BUFSIZE`. -/
def State.bufSize (s : State) : Nat := Config.block * s.params.nblk

/-- R160: `INITPAT(i)`. -/
def patAt (p : InitPat) (i : Nat) : Byte := (p.marks.lookup i).getD p.fill

/-- `BUF[i]`. A byte that nothing has written since the reset holds any value (R24, U4): the free value. -/
def State.byte (s : State) (i : Nat) : Byte :=
  (Memory.get? s.buf i).getD (Config.unspecifiedByte s.resets i)

/-- The state with `b` in `BUF[i]`. -/
def State.setByte (s : State) (i : Nat) (b : Byte) : State := { s with buf := Memory.put s.buf i b }

/-! ## Errors and the end of a command -/

/-- R186: `raise E`, entering the fault state. Nothing but `ERR` changes; there is no handler. -/
def raise (e : Err) (s : State) : Host.Outcome State Fault Refusal := .next { s with err := e }

/-- R189, R161: there is no return from an error; what `FILL` does to `ERR` is the only way on. -/
def clearErr (s : State) : State := { s with err := .none }

/-- R188: the first line of every command but `FILL`, "if `ERR != 0` then end". -/
def unlessFaulted (s : State) (body : State → Host.Outcome State Fault Refusal) : Host.Outcome State Fault Refusal :=
  if s.err = .none then body s else .next s

/-- A command part way through: it goes on from a state, or it has ended. -/
inductive Flow where
  | go (s : State)
  | ended (o : Host.Outcome State Fault Refusal)

/-- What comes next in the command, unless it has ended. -/
def Flow.andThen : Flow → (State → Flow) → Flow
  | .go s, f => f s
  | .ended o, _ => .ended o

/-- The end of the command: `f` is its last statement. -/
def Flow.finish : Flow → (State → Host.Outcome State Fault Refusal) → Host.Outcome State Fault Refusal
  | .go s, f => f s
  | .ended o, _ => o

/-- R37: `MemWrite(i, 1, b)`, the guarded write. -/
def memWrite (i b : Nat) (s : State) : Flow :=
  if s.bufSize ≤ i then .ended (raise .bufferOverflow s) else .go (s.setByte i (BitVec.ofNat 8 (b &&& 0xFF)))

/-- R8: `MemRead(i, 1)`, which has a meaning below `BUFSIZE` only. -/
def memRead (i : Nat) (s : State) (use : Nat → Flow) : Flow :=
  if i < s.bufSize then use (s.byte i).toNat else .ended (.fault .readOutsideBuffer)

/-! ## The cursor -/

/-- R122: the reserved-byte skip. -/
def skip (i : Nat) : Nat := if i % Config.block = 0 then i + 1 else i

/-- R7: the mask of the top `o` bits of a byte. -/
def hiMask (o : Nat) : Nat := (0xFF <<< (8 - o)) &&& 0xFF

/-- The cursor moved to bit offset `o` of byte `i`. -/
def State.moveTo (s : State) (i o : Nat) : State :=
  { s with cur := { byteIndex := BitVec.ofNat 16 i, bitOffset := BitVec.ofNat 3 o } }

/-- `CUR.byteIndex` as a number. -/
def State.byteIndex (s : State) : Nat := s.cur.byteIndex.toNat

/-- `CUR.bitOffset` as a number. -/
def State.bitOffset (s : State) : Nat := s.cur.bitOffset.toNat

/-- R125: `advance()`, to the next data byte. -/
def advance (s : State) : State := s.moveTo (skip (s.byteIndex + 1)) 0

/-- R125: "`CUR.bitOffset <- n`; if `CUR.bitOffset = 8` then `advance()`". -/
def fillTo (n : Nat) (s : State) : State := if n = 8 then advance s else s.moveTo s.byteIndex n

/-! ## The packer's writes -/

/-- R125: `put_chunk` into an empty byte. -/
def putEmpty (v L : Nat) (s : State) : Flow :=
  (memWrite s.byteIndex ((v <<< (8 - L)) &&& 0xFF) s).andThen fun s => .go (fillTo L s)

/-- R125: `put_chunk` where the chunk fits the byte, whose old bits are `old`. -/
def putFits (v L old : Nat) (s : State) : Flow :=
  (memWrite s.byteIndex (old ||| (v <<< (8 - s.bitOffset - L))) s).andThen fun t => .go (fillTo (s.bitOffset + L) t)

/-- R125: `put_chunk` where the chunk spans two bytes, the first of which holds the old bits `old`. -/
def putSpans (v L old : Nat) (s : State) : Flow :=
  let r := L - (8 - s.bitOffset)
  (memWrite s.byteIndex (old ||| (v >>> r)) s).andThen fun s =>
    let s := advance s
    (memWrite s.byteIndex (((v &&& (2 ^ r - 1)) <<< (8 - r)) &&& 0xFF) s).andThen fun s =>
      .go (s.moveTo s.byteIndex r)

/-- R125: `put_chunk(v, L)`, for `1 <= L <= 8` and `v < 2^L`. -/
def putChunk (v L : Nat) (s : State) : Flow :=
  let s := s.moveTo (skip s.byteIndex) s.bitOffset
  if s.bitOffset = 0 then putEmpty v L s
  else
    memRead s.byteIndex s fun byte =>
      let old := byte &&& hiMask s.bitOffset
      if L ≤ 8 - s.bitOffset then putFits v L old s else putSpans v L old s

/-- R126: the length of chunk `k` of a field of `len` bits, 0 where there is no such chunk. -/
def laneLen (len k : Nat) : Nat := min 8 (len - 8 * k)

/-- R126: chunk `k` of the field value `x`. -/
def laneVal (x len k : Nat) : Nat := (x >>> (8 * k)) &&& (2 ^ laneLen len k - 1)

/-- R127: the loop over the chunks `k - 1` down to 0. -/
def putLanes (x len : Nat) : Nat → State → Flow
  | 0, s => .go s
  | k + 1, s =>
    (if 1 ≤ laneLen len k then putChunk (laneVal x len k) (laneLen len k) s else .go s).andThen (putLanes x len k)

/-- R13: `FIDX <- min(FIDX + 1, 65535)`. -/
def countField (s : State) : State := { s with fidx := BitVec.ofNat 16 (min (s.fidx.toNat + 1) 65535) }

/-! ## Resetting -/

/-- R210, R24: a hardware reset. The parameters, and what the host does next, are not the CORE's to reset; the bytes
of `BUF` become unspecified anew. -/
def hardReset (s : State) : State :=
  { State.reset with params := s.params, host := s.host, draws := s.draws, resets := s.resets + 1 }

end Sys2Proof.Machine
end

