-- ==== Sys2Proof/Machine/Checksum.lean ====
section
/-! DEFINITION. The Block Checksum Calculator: `CSUM`. -/

namespace Sys2Proof.Machine

/-- R150: `S_b`, the sum of the 31 data bytes of block `b` read as signed numbers. -/
def blockSum (s : State) (b : Nat) : Int :=
  ((List.range 31).map fun j => (s.byte (Config.block * b + (j + 1))).toInt).sum

/-- R150: `C_b`, the negated sum modulo 256. -/
def blockChecksum (s : State) (b : Nat) : Byte := BitVec.ofInt 8 (-blockSum s b)

/-- R151: the reserved byte of block `b` written. -/
def checksumBlock (s : State) (b : Nat) : State := s.setByte (Config.block * b) (blockChecksum s b)

/-- R151: `HB`, the highest block that `CSUM` covers. -/
def highBlock (s : State) : Nat := min (s.byteIndex / Config.block) (s.params.nblk - 1)

/-- `CSUM` (R151): the blocks from 0 to `HB`, in that order. -/
def execCsum (s : State) : Host.Outcome State Fault Refusal :=
  unlessFaulted s fun s => .next ((List.range (highBlock s + 1)).foldl checksumBlock s)

end Sys2Proof.Machine
end

