-- ==== Sys2Proof/Machine/Arith.lean ====
section
/-! DEFINITION. The converter's arithmetic: truncation and rounding (R7, R83), the 32-bit result (R84), the Chr5 lanes
(R86), logarithms compared exactly (R94, R95) and the single-precision pattern (R96). -/

namespace Sys2Proof.Machine

/-- R7: the integer part of `q` toward zero. -/
def truncRat (q : Rat) : Int := if 0 ≤ q then q.floor else -(-q).floor

/-- R84: `to_u32(n)`; `none` where the command is refused. -/
def toU32 (n : Int) : Option Word := if -2 ^ 31 ≤ n ∧ n ≤ 2 ^ 32 - 1 then some (BitVec.ofInt 32 n) else none

/-! ## Rounding -/

/-- R83: `round(x)`, from `m = floor(x + 1/2)` and whether `x` is exactly `m - 1/2`. -/
def roundBy (tie : RoundTie) (m : Int) (half : Bool) : Int :=
  match tie with
  | .halfUp => m
  | .halfEven => if half ∧ m % 2 ≠ 0 then m - 1 else m
  | .halfAway => if half ∧ m ≤ 0 then m - 1 else m

/-- R83: `round(q)` of a rational `q`. -/
def roundRat (tie : RoundTie) (q : Rat) : Int := roundBy tie (q + 1 / 2).floor ((q + 1 / 2).den = 1)

/-! ## Chr5 -/

/-- R86: `code5(c) = (c - 64) mod 32`. -/
def code5 (c : Byte) : Nat := (((c.toNat : Int) - 64) % 32).toNat

/-- R86: the sum of `code5(raw[i]) * 2^(5*i)`. -/
def chr5 : Text → Nat
  | [] => 0
  | c :: t => code5 c + 2 ^ 5 * chr5 t

/-! ## Logarithms, compared by powers -/

/-- R95: `(p/q)^e ≤ (u/v)^n`, in whole numbers. -/
def powLe (p q u v : Nat) (e : Int) (n : Nat) : Bool :=
  match e with
  | .ofNat k => p ^ k * v ^ n ≤ u ^ n * q ^ k
  | .negSucc k => q ^ (k + 1) * v ^ n ≤ u ^ n * p ^ (k + 1)

/-- The first `j` from `j` on with `holds (2^j)` false, or where the fuel ends. -/
def climb (holds : Nat → Bool) : Nat → Nat → Nat
  | 0, j => j
  | fuel + 1, j => if holds (2 ^ j) then climb holds fuel (j + 1) else j

/-- The largest number below `a + 2^j` that `holds`, bit by bit, given that `a` does. -/
def refine (holds : Nat → Bool) : Nat → Nat → Nat
  | 0, a => a
  | j + 1, a => if holds (a + 2 ^ j) then refine holds j (a + 2 ^ j) else refine holds j a

/-- The largest number that `holds`, for a property that holds of 0, of nothing from `2^fuel` on, and of every number
below one it holds of. -/
def largest (holds : Nat → Bool) (fuel : Nat) : Nat := refine holds (climb holds fuel 0) 0

/-- The largest integer that `holds`, for such a property of integers that fails from `2^fuel` on and holds below
`-2^fuel`. -/
def largestInt (holds : Int → Bool) (fuel : Nat) : Int :=
  if holds 0 then (largest (fun n => holds n) fuel : Int) else -((largest (fun n => !holds (-(n : Int))) fuel : Int) + 1)

/-- `floor(ln(r)/ln(b) + c)` for `r > 0` and `b > 1`: the largest `k` with `b^(k - c) ≤ r`, both sides raised to the
denominator of `c` (R95). -/
def floorLogUp (r b c : Rat) : Int :=
  let p := b.num.toNat
  let u := r.num.toNat
  largestInt (fun k => powLe p b.den u r.den (k * c.den - c.num) c.den)
    (Nat.log2 (b.den * (Nat.log2 u + Nat.log2 r.den + 2) + c.num.natAbs + 1) + 1)

/-- `floor(ln(r)/ln(b) + c)` for `r > 0`, `b > 0`, `b ≠ 1` (R94, R95). -/
def floorLog (r b c : Rat) : Int := if 1 < b then floorLogUp r b c else floorLogUp r⁻¹ b⁻¹ c

/-- `ceil(ln(r)/ln(b) + c)`. -/
def ceilLog (r b c : Rat) : Int := -floorLog r⁻¹ b (-c)

/-- R95: `ln(r)/ln(b)` is an exact half, so that adding 1/2 gives an integer. -/
def logIsHalf (r b : Rat) : Bool := floorLog r b (1 / 2) = ceilLog r b (1 / 2)

/-- R94: `round(ln(r)/ln(b))`. -/
def roundLog (tie : RoundTie) (r b : Rat) : Int := roundBy tie (floorLog r b (1 / 2)) (logIsHalf r b)

/-- R95: the least and the greatest integer `m` with `|ln(r)/ln(b) - (m + 1/2)| ≤ EPS_LN`; each such `m` allows `m` and
`m + 1`. -/
def lnBand (eps r b : Rat) : Int × Int := (ceilLog r b (-1 / 2 - eps), floorLog r b (-1 / 2 + eps))

/-! ## Single precision -/

/-- R96: the integer `e` with `2^e ≤ q < 2^(e+1)`, for `q > 0`. -/
def ilog2 (q : Rat) : Int :=
  let e : Int := Nat.log2 q.num.toNat - Nat.log2 q.den
  if (2 : Rat) ^ e ≤ q then e else e - 1

/-- R96: `f` rounded to nearest, halves to even. -/
def roundEven (m : Rat) : Nat :=
  let f := m.floor.toNat
  let rem := m - f
  if 1 / 2 < rem ∨ (rem = 1 / 2 ∧ f % 2 = 1) then f + 1 else f

/-- R96: the pattern of the rounded fraction `f` at exponent `e`, without the sign. -/
def packSingle (f : Nat) (e : Int) : Nat :=
  if f < 2 ^ 23 then f
  else if 127 < e then 0x7F800000
  else ((e + 127) * 2 ^ 23).toNat + (f - 2 ^ 23)

/-- R96: the pattern of the magnitude `q`, without the sign. -/
def singleMag (q : Rat) : Nat :=
  if q = 0 then 0
  else
    let e := max (ilog2 q) (-126)
    let f := roundEven (q / (2 : Rat) ^ (e - 23))
    if f = 2 ^ 24 then packSingle (2 ^ 23) (e + 1) else packSingle f e

/-- R96: the single-precision pattern of a decimal number whose sign flag is `neg` and whose magnitude is `q`. -/
def single (neg : Bool) (q : Rat) : Nat := (if neg then 2 ^ 31 else 0) + singleMag q

end Sys2Proof.Machine
end

