-- ==== Sys2Proof/Machine/Operands.lean ====
section
/-! DEFINITION. The text operands the Type Converter reads: decimal numbers (R82), dates (R87, R88) and range specs
(R90, R93). Character codes are those of R55. -/

namespace Sys2Proof.Machine

/-- Space, 0x20 (R55). -/
def isSpace (c : Byte) : Bool := c == 0x20

/-- `0` to `9`, 0x30 to 0x39 (R55). -/
def isDigit (c : Byte) : Bool := 0x30 ≤ c.toNat && c.toNat ≤ 0x39

/-- The text without leading and trailing spaces (R82, R88). -/
def trim (t : Text) : Text := ((t.dropWhile isSpace).reverse.dropWhile isSpace).reverse

/-- The number a run of digits denotes in base ten. -/
def digitsVal (t : Text) : Nat := t.foldl (fun n c => 10 * n + (c.toNat - 0x30)) 0

/-! ## Decimal numbers -/

/-- The two readings R82 gives a decimal number: `neg(text)` and the magnitude of `dec(text)`. -/
structure Number where
  neg : Bool
  mag : Rat
  deriving DecidableEq, Repr

/-- R82: `dec(text)`, an exact rational number. -/
def Number.val (x : Number) : Rat := if x.neg then -x.mag else x.mag

/-- R82: `sign?`. True for `-`; the rest of the text follows. -/
def splitSign : Text → Bool × Text
  | [] => (false, [])
  | c :: t => if c = 0x2D then (true, t) else if c = 0x2B then (false, t) else (false, c :: t)

/-- R82: `exponent?`, the whole of the text: nothing, or `e` or `E`, a sign or none, and one to four digits. -/
def exponent? : Text → Option Int
  | [] => some 0
  | c :: t =>
    let (neg, ds) := splitSign t
    if (c = 0x65 ∨ c = 0x45) ∧ ds.all isDigit ∧ 1 ≤ ds.length ∧ ds.length ≤ 4 then
      some (if neg then -(digitsVal ds : Int) else digitsVal ds)
    else none

/-- R82: `( "." digit* )?`: the digits after the point, and the rest of the text. -/
def splitFraction : Text → Text × Text
  | [] => ([], [])
  | c :: t => if c = 0x2E then (t.takeWhile isDigit, t.dropWhile isDigit) else ([], c :: t)

/-- R82: the value of `number` without its sign: the digits of the mantissa, `places` of them after the point, times
ten to the exponent. -/
def decimalMag (digits : Text) (places : Nat) (exp : Int) : Rat := digitsVal digits * (10 : Rat) ^ (exp - places)

/-- R82: `number`, the whole of the text (no removal of spaces). -/
def number? (t : Text) : Option Number :=
  let (neg, t) := splitSign t
  let whole := t.takeWhile isDigit
  let (frac, t) := splitFraction (t.dropWhile isDigit)
  if whole = [] ∧ frac = [] then none
  else (exponent? t).map fun e => { neg := neg, mag := decimalMag (whole ++ frac) frac.length e }

/-- R82: a decimal number as a `raw` operand, leading and trailing spaces removed. -/
def decimal? (t : Text) : Option Number := number? (trim t)

/-! ## Dates -/

/-- A calendar date. -/
structure Date where
  y : Nat
  m : Nat
  d : Nat
  deriving DecidableEq, Repr

/-- R87: leap years. -/
def leapYear (y : Nat) : Bool := y % 4 = 0 ∧ (y % 100 ≠ 0 ∨ y % 400 = 0)

/-- R87: the number of days of month `m` of year `y`. -/
def monthDays (y m : Nat) : Nat :=
  if m = 2 then (if leapYear y then 29 else 28) else if m = 4 ∨ m = 6 ∨ m = 9 ∨ m = 11 then 30 else 31

/-- R88: `m` must be 1 to 12 and `d` 1 to the number of days of the month. -/
def Date.valid (t : Date) : Bool := 1 ≤ t.m ∧ t.m ≤ 12 ∧ 1 ≤ t.d ∧ t.d ≤ monthDays t.y t.m

/-- R88: `YYYY-MM-DD`, exactly ten characters, and a date that exists. -/
def date? (t : Text) : Option Date :=
  match trim t with
  | [y3, y2, y1, y0, h1, m1, m0, h2, d1, d0] =>
    let date : Date :=
      { y := digitsVal [y3, y2, y1, y0], m := digitsVal [m1, m0], d := digitsVal [d1, d0] }
    if [y3, y2, y1, y0, m1, m0, d1, d0].all isDigit ∧ h1 = 0x2D ∧ h2 = 0x2D ∧ date.valid then some date else none
  | _ => none

/-- R87: `dfc(y, m, d)`, days from 1970-01-01. `/` and `%` of a positive divisor are R7's `div` and `mod`. -/
def dayCount (t : Date) : Int :=
  let y2 : Int := t.y - (if t.m ≤ 2 then 1 else 0)
  let era := y2 / 400
  let yoe := y2 - 400 * era
  let mp : Int := (t.m + 9) % 12
  let doy := (153 * mp + 2) / 5 + t.d - 1
  let doe := 365 * yoe + yoe / 4 - yoe / 100 + doy
  146097 * era + doe - 719468

/-! ## Range specs -/

/-- The tokens of a text that spaces separate; `cur` is the token read so far. -/
def wordsFrom (cur : Text) : Text → List Text
  | [] => if cur = [] then [] else [cur]
  | c :: t =>
    if isSpace c then (if cur = [] then wordsFrom [] t else cur :: wordsFrom [] t) else wordsFrom (cur ++ [c]) t

/-- The tokens of a text: what one or more spaces separate (R90: `sp`), outer spaces removed. -/
def words (t : Text) : List Text := wordsFrom [] t

/-- The three numbers of a range spec: `min`, `max` and `step` (R90), or `min`, `max` and `pct` (R93). -/
structure RangeSpec where
  min : Rat
  max : Rat
  res : Rat
  deriving DecidableEq, Repr

/-- The three numbers of a range spec from their texts, and the word `to` (R90, R93). -/
def rangeSpec? (lo kw hi res : Text) : Option RangeSpec :=
  if kw = [0x74, 0x6F] then
    match number? lo, number? hi, number? res with
    | some a, some b, some c => some { min := a.val, max := b.val, res := c.val }
    | _, _, _ => none
  else none

/-- R90: `<min> to <max> step <step>`. -/
def conresSpec? (t : Text) : Option RangeSpec :=
  match words t with
  | [lo, kw, hi, st, res] => if st = [0x73, 0x74, 0x65, 0x70] then rangeSpec? lo kw hi res else none
  | _ => none

/-- R93: `±<pct>%` without a space: the text of the number between 0xB1 and 0x25. -/
def percent? : Text → Option Text
  | [] => none
  | c :: t => if c = 0xB1 ∧ t.getLast? = some 0x25 then some t.dropLast else none

/-- R93: `<min> to <max> ±<pct>%`. -/
def conrelresSpec? (t : Text) : Option RangeSpec :=
  match words t with
  | [lo, kw, hi, pc] => (percent? pc).bind fun res => rangeSpec? lo kw hi res
  | _ => none

end Sys2Proof.Machine
end

