-- ==== Sys2Proof/Machine/Converter.lean ====
section
/-! DEFINITION. The Type Converter: the seven `CVT` commands, each after the common steps of R80. -/

namespace Sys2Proof.Machine

/-- R80 step 5, R84: `VAL <- to_u32(n)`, or the command is refused. -/
def writeInt (n : Int) (s : State) : Host.Outcome State Fault Refusal :=
  match toU32 n with
  | some v => .next { s with val := some v }
  | none => .refused .resultOutOfRange

/-- `VAL <- n mod 2^32`, for the results that always fit. -/
def writeBits (n : Int) (s : State) : Host.Outcome State Fault Refusal := .next { s with val := some (BitVec.ofInt 32 n) }

/-- `CVT.UNINT raw` (R85). -/
def execCvtUnint (raw _rng : Text) (s : State) : Host.Outcome State Fault Refusal :=
  unlessFaulted s fun s =>
    match decimal? raw with
    | none => raise .parseError s
    | some x => writeInt (truncRat x.val) s

/-- `CVT.CHR5 raw` (R86). -/
def execCvtChr5 (raw _rng : Text) (s : State) : Host.Outcome State Fault Refusal :=
  unlessFaulted s fun s => writeBits (chr5 raw) s

/-- `CVT.DATE raw` (R89). -/
def execCvtDate (raw _rng : Text) (s : State) : Host.Outcome State Fault Refusal :=
  unlessFaulted s fun s =>
    match date? raw with
    | none => raise .parseError s
    | some t => writeBits (dayCount t - Config.epoch) s

/-- R91: the quotient `CVT.CONRES` rounds; `none` is a `ParseError`. -/
def conresQuotient (raw rng : Text) : Option Rat :=
  match decimal? raw, conresSpec? rng with
  | some x, some spec => if spec.res = 0 then none else some ((x.val - spec.min) / spec.res)
  | _, _ => none

/-- `CVT.CONRES raw, rng` (R91). -/
def execCvtConres (raw rng : Text) (s : State) : Host.Outcome State Fault Refusal :=
  unlessFaulted s fun s =>
    match conresQuotient raw rng with
    | none => raise .parseError s
    | some q => writeInt (roundRat s.params.roundTie q) s

/-- R94: the ratio `r` and the base `b` of `CVT.CONRELRES`; `none` is a `ParseError`. -/
def conrelresOperands (raw rng : Text) : Option (Rat × Rat) :=
  match decimal? raw, conrelresSpec? rng with
  | some x, some spec =>
    let r := x.val / spec.min
    let b := 1 + 2 * spec.res / 100
    if spec.min = 0 ∨ r ≤ 0 ∨ b ≤ 0 ∨ b = 1 then none else some (r, b)
  | _, _ => none

/-- R94, R95: the integer `CVT.CONRELRES` writes and the state after it is chosen. Where `EPS_LN` leaves more than one
integer, the choice is a free value and the counter of draws goes up. -/
def chooseLog (r b : Rat) (s : State) : Int × State :=
  let band := lnBand s.params.epsLn r b
  if logIsHalf r b = false ∧ band.1 ≤ band.2 then
    (band.1 + (Config.lnChoice s.draws : Int) % (band.2 - band.1 + 2), { s with draws := s.draws + 1 })
  else (roundLog s.params.roundTie r b, s)

/-- `CVT.CONRELRES raw, rng` (R94, R95). -/
def execCvtConrelres (raw rng : Text) (s : State) : Host.Outcome State Fault Refusal :=
  unlessFaulted s fun s =>
    match conrelresOperands raw rng with
    | none => raise .parseError s
    | some (r, b) => writeInt (chooseLog r b s).1 (chooseLog r b s).2

/-- `CVT.SINGLE raw` (R96). -/
def execCvtSingle (raw _rng : Text) (s : State) : Host.Outcome State Fault Refusal :=
  unlessFaulted s fun s =>
    match decimal? raw with
    | none => raise .parseError s
    | some x => writeBits (single x.neg x.mag) s

/-- `CVT.UNREC raw, rng` (R97): the tags 6 and 7. -/
def execCvtUnrec (_tag7 : Bool) (_raw _rng : Text) (s : State) : Host.Outcome State Fault Refusal :=
  unlessFaulted s fun s => raise .unrecognizedType s

end Sys2Proof.Machine
end

