-- ==== Sys2Proof/Machine/Lifecycle.lean ====
section
/-! DEFINITION. The lifecycle commands: `FILL`, `CRST` and `LDV`. -/

namespace Sys2Proof.Machine

/-- R161: every byte of the buffer from `INITPAT`. -/
def filled (s : State) : State :=
  { s with buf := (List.range s.bufSize).map fun i => (i, patAt s.params.initPat i) }

/-- `FILL` (R161). It runs whatever `ERR` is. It writes every byte and leaves the cursor, so that inside a byte the bits
below the cursor are the pattern's until a `CRST`, against the second half of R16 (c) (log entry 9). -/
def execFill (s : State) : Host.Outcome State Fault Refusal := .next (clearErr (filled s))

/-- `CRST` (R123). -/
def execCrst (s : State) : Host.Outcome State Fault Refusal :=
  unlessFaulted s fun s => .next { s.moveTo 1 0 with fidx := 0 }

/-- `LDV imm32` (R124). -/
def execLdv (imm : Word) (s : State) : Host.Outcome State Fault Refusal :=
  unlessFaulted s fun s => .next { s with val := some imm }

end Sys2Proof.Machine
end

