-- ==== Sys2Proof/Machine/Packer.lean ====
section
/-! DEFINITION. The Bit Packer: `APPEND` and `TERM`. -/

namespace Sys2Proof.Machine

/-- R127: `APPEND` once `VAL` is known to hold `v`. -/
def appendValue (len : BitVec 6) (v : Word) (s : State) : Host.Outcome State Fault Refusal :=
  (putLanes (v.toNat &&& (2 ^ len.toNat - 1)) len.toNat 4 s).finish fun s => .next (countField s)

/-- `APPEND len` (R127). Its second statement is the spec's own "if VAL holds no value then refuse", and R8 says of
`refuse` that a model returns a refusal, never a value. A `len` that R52 reserves is refused here too (R58). -/
def execAppend (len : BitVec 6) (s : State) : Host.Outcome State Fault Refusal :=
  if lenLegal len then
    unlessFaulted s fun s =>
      match s.val with
      | none => .refused .valAbsent
      | some v => appendValue len v s
  else .refused (.reservedEncoding .len)

/-- R129: the cursor at the byte the terminator goes to. -/
def alignForTerm (s : State) : State := if s.bitOffset = 0 then s else advance s

/-- `TERM` (R129). -/
def execTerm (s : State) : Host.Outcome State Fault Refusal :=
  unlessFaulted s fun s => (putChunk Config.termByte 8 (alignForTerm s)).finish fun s => .next s

end Sys2Proof.Machine
end

