-- ==== Sys2Proof/Machine/Dispatch.lean ====
section
/-! DEFINITION. The meaning of every command, one arm for each constructor of Instr. DESIGN CHOICE (log entry 22): a
conversion is given the same meaning for texts of more than 255 characters, which no packet carries (R54, U17). -/

namespace Sys2Proof.Machine

def exec (i : Instr) (s : State) : Host.Outcome State Fault Refusal :=
  match i with
  | .fill => Sys2Proof.Machine.execFill s
  | .crst => Sys2Proof.Machine.execCrst s
  | .ldv imm => Sys2Proof.Machine.execLdv imm s
  | .cvtUnint raw rng => Sys2Proof.Machine.execCvtUnint raw rng s
  | .cvtChr5 raw rng => Sys2Proof.Machine.execCvtChr5 raw rng s
  | .cvtDate raw rng => Sys2Proof.Machine.execCvtDate raw rng s
  | .cvtConres raw rng => Sys2Proof.Machine.execCvtConres raw rng s
  | .cvtConrelres raw rng => Sys2Proof.Machine.execCvtConrelres raw rng s
  | .cvtSingle raw rng => Sys2Proof.Machine.execCvtSingle raw rng s
  | .cvtUnrec tag7 raw rng => Sys2Proof.Machine.execCvtUnrec tag7 raw rng s
  | .append len => Sys2Proof.Machine.execAppend len s
  | .term => Sys2Proof.Machine.execTerm s
  | .csum => Sys2Proof.Machine.execCsum s

end Sys2Proof.Machine
end

