-- ==== Sys2Proof/Machine/Fetch.lean ====
section
/-! DEFINITION. How the CORE takes its next command from the host (R50), and how a command word is put there. -/

namespace Sys2Proof.Machine

/-- What the CORE finds when it is ready for a command. -/
inductive Fetched where
  /-- Nothing was sent: it waits (R210). -/
  | nothing
  /-- The host resets it. -/
  | hostReset
  /-- A command, taken from the front of what the host sent. -/
  | command (i : Instr)
  /-- Bytes that are no packet (R58). -/
  | reserved (why : Reserved)
  deriving DecidableEq, Repr

/-- What the host has yet to do once a packet is taken and the bytes `rest` were sent after it: a packet's own header
and length bytes say where it ends (R50), and the next packet begins there. -/
def sendRest (rest : List Byte) (acts : List HostAct) : List HostAct :=
  if rest = [] then acts else .send rest :: acts

/-- The next command, and the state with it taken from the host's acts. An act that sends no bytes is passed over.
DESIGN CHOICE (log entry 21): a packet never goes on into another act, so bytes that end before their packet's payload
is complete are an incomplete packet (R58). -/
def fetchFrom (s : State) : List HostAct → Fetched × State
  | [] => (.nothing, { s with host := [] })
  | .reset :: acts => (.hostReset, { s with host := acts })
  | .send [] :: acts => fetchFrom s acts
  | .send (b :: bs) :: acts =>
    match decode (b :: bs) with
    | .ok (i, rest) => (.command i, { s with host := sendRest rest acts })
    | .error why => (.reserved why, { s with host := acts })

/-- The next command from the host. -/
def fetch (s : State) : Fetched × State := fetchFrom s s.host

/-- The host sends one packet before everything else it has yet to do. -/
def sendFirst (bytes : List Byte) (s : State) : State := { s with host := .send bytes :: s.host }

end Sys2Proof.Machine
end

