-- ==== Sys2Proof/Machine/Step.lean ====
section
/-! DEFINITION. One step of the CORE: the next command of the host, start to end (R8: a command is atomic). -/

namespace Sys2Proof.Machine

/-- One step: nothing changes while the host sends nothing, a reset takes effect between commands (R210), a command
runs to its end (R41), and a reserved encoding is refused (R58). -/
def step (s : State) : Host.Outcome State Fault Refusal :=
  match fetch s with
  | (.nothing, t) => .next t
  | (.hostReset, t) => .next (hardReset t)
  | (.command i, t) => exec i t
  | (.reserved why, _) => .refused (.reservedEncoding why)

/-- The state with the packet of an opcode-table word sent by the host, before everything else the host sends. -/
def State.withFetchWord (s : State) (nbits w : Nat) : State := sendFirst (tablePacket nbits w) s

end Sys2Proof.Machine
end

