-- ==== Sys2Proof/Machine/Flags.lean ====
section
/-! DEFINITION. The status the host can test: the codes of `ERR`. The CORE has no condition codes, carry, overflow or
zero flag and no command sets a flag (R18), so there is no flag computation. -/

namespace Sys2Proof.Machine

/-- The codes of R17. -/
def Err.code : Err → BitVec 2
  | .none => 0
  | .parseError => 1
  | .unrecognizedType => 2
  | .bufferOverflow => 3

/-- The error a code of R17 stands for. -/
def Err.ofCode (c : BitVec 2) : Err :=
  if c = 0 then .none else if c = 1 then .parseError else if c = 2 then .unrecognizedType else .bufferOverflow

end Sys2Proof.Machine
end

