-- ==== Sys2Proof/Machine/HostPort.lean ====
section
/-! DEFINITION. What the host reads between commands, without any effect: the status port (R22), the read port of the
buffer (R196) and the text it renders the buffer as (R65). None of these is a command. -/

namespace Sys2Proof.Machine

/-- R22: register `n` of the status port. `none` where there is no such register, and where `VAL` holds no value. -/
def statusPort (s : State) (n : Nat) : Option Word :=
  if n = 0 then s.val
  else if n = 1 then some (s.cur.byteIndex.zeroExtend 32)
  else if n = 2 then some (s.cur.bitOffset.zeroExtend 32)
  else if n = 3 then some (s.fidx.zeroExtend 32)
  else if n = 4 then some (s.err.code.zeroExtend 32)
  else none

/-- The bytes `BUF[0 .. BUFSIZE-1]`. -/
def bufBytes (s : State) : List Byte := (List.range s.bufSize).map s.byte

/-- R196, R187: the read port. While a fault is recorded the buffer is not observable. -/
def readPort (s : State) : Option (List Byte) := if s.err = .none then some (bufBytes s) else none

/-- R65: the digit of a nibble, `0`-`9` and `A`-`F`. -/
def hexDigit (n : Nat) : Char := Char.ofNat (if n < 10 then 0x30 + n else 0x41 + (n - 10))

/-- R65: the two characters of a byte, high nibble first. -/
def hexByte (b : Byte) : List Char := [hexDigit (b.toNat / 16), hexDigit (b.toNat % 16)]

/-- R65: `HEX`, byte 0 first. -/
def hex (bytes : List Byte) : List Char := bytes.flatMap hexByte

end Sys2Proof.Machine
end

