-- ==== Sys2Proof/Machine/Pipeline.lean ====
section
/-! DEFINITION. The pseudo-instructions of R67, expanded into commands by the host, and how the host sends a sequence
of commands. -/

namespace Sys2Proof.Machine

/-- R9: the type tag of a Field Record; `other` is any tag outside the six kinds. -/
inductive TypeTag where
  | unint
  | chr5
  | date
  | conres
  | conrelres
  | single
  | other
  deriving DecidableEq, Repr

/-- R9, R164: the unit of input. The name is not sent to the CORE. -/
structure FieldRecord where
  name : Text
  rawValue : Text
  bitLength : BitVec 6
  rangeSpec : Text
  typeTag : TypeTag
  deriving DecidableEq, Repr

/-- R164: the `CVT` command of a field; a tag outside the six kinds is sent as `CVT.UNREC6`. -/
def convertField (f : FieldRecord) : Instr :=
  match f.typeTag with
  | .unint => .cvtUnint f.rawValue f.rangeSpec
  | .chr5 => .cvtChr5 f.rawValue f.rangeSpec
  | .date => .cvtDate f.rawValue f.rangeSpec
  | .conres => .cvtConres f.rawValue f.rangeSpec
  | .conrelres => .cvtConrelres f.rawValue f.rangeSpec
  | .single => .cvtSingle f.rawValue f.rangeSpec
  | .other => .cvtUnrec false f.rawValue f.rangeSpec

/-- R164: `FIELD`. DESIGN CHOICE (log entry 22): a raw value or a range spec of more than 255 characters, which no packet
carries (R54, U17), is expanded like any other. -/
def expandField (f : FieldRecord) : List Instr := [convertField f, .append f.bitLength]

/-- R165: `ENCODE`. -/
def expandEncode (fs : List FieldRecord) : List Instr :=
  [.fill, .crst] ++ fs.flatMap expandField ++ [.term, .csum]

/-- The host sends a sequence of commands, one packet after the other, after what it has yet to do (R50).
DESIGN CHOICE (log entry 22): it does not look whether a packet can carry the command. -/
def sendAll (cmds : List Instr) (s : State) : State :=
  { s with host := s.host ++ cmds.map fun i => .send (encode i) }

/-- The commands of a sequence, one after the other, up to the first fault or refusal (R41). DESIGN CHOICE (log entry
22): a conversion of a text that no packet carries runs like any other. -/
def runAll : List Instr → State → Host.Outcome State Fault Refusal
  | [], s => .next s
  | i :: is, s =>
    match exec i s with
    | .next s => runAll is s
    | .fault r => .fault r
    | .refused r => .refused r

end Sys2Proof.Machine
end

