-- ==== Sys2Proof/Safety.lean ====
section
/-! DEFINITION. The terms the statements use: the invariant of R16, the end of a run, the bit stream of R34, the
grammars as the spec writes them, and the values that results stand for. -/

namespace Sys2Proof.Machine

/-! ## Runs -/

/-- What R16 (a), (b) and the first half of (c) say of the cursor, with the parameters in their ranges (R6) and the
buffer canonical and inside the address space (R30). Log entry 9 says why the rest of R16 (c) is not in it. -/
structure State.Inv (s : State) : Prop where
  params : s.params.wf
  canonical : Memory.wf s.buf
  inside : ∀ c ∈ s.buf, c.1 < s.bufSize
  notReserved : s.byteIndex % Config.block ≠ 0
  bounded : s.byteIndex ≤ s.bufSize + 1
  partlyFilled : s.bitOffset ≠ 0 → s.byteIndex < s.bufSize

/-- The second half of R16 (c): while no error is recorded, the bits of the partly filled byte below the cursor are 0.
It is not part of `State.Inv`, because `FILL` in the middle of a pass puts the pattern there (R161, log entry 9). -/
def State.FreeBitsClear (s : State) : Prop :=
  s.err = .none → s.bitOffset ≠ 0 → ∀ j < 8 - s.bitOffset, (s.byte s.byteIndex).getLsbD j = false

/-- R168: the run is over and ended well; the result is `BUF`. -/
def State.endedWell (s : State) : Prop := s.host = [] ∧ s.err = .none

/-- R168, R187: the run is over and ended badly; the results are `ERR`, `FIDX` and `CUR` alone. -/
def State.endedBadly (s : State) : Prop := s.host = [] ∧ s.err ≠ .none

/-- The seven commands of the Type Converter. -/
def isConvert : Instr → Bool
  | .cvtUnint _ _ | .cvtChr5 _ _ | .cvtDate _ _ | .cvtConres _ _ | .cvtConrelres _ _ | .cvtSingle _ _ => true
  | .cvtUnrec _ _ _ => true
  | .fill | .crst | .ldv _ | .append _ | .term | .csum => false

/-! ## The bit stream -/

/-- R34: `idx(k)`, the index of data byte number `k`. -/
def dataIndex (k : Nat) : Nat := 32 * (k / 31) + k % 31 + 1

/-- R34: how many stream bits lie before the cursor. -/
def streamPos (s : State) : Nat := 8 * (s.byteIndex - 1 - s.byteIndex / 32) + s.bitOffset

/-- R34: stream bit `p` of the buffer. -/
def streamBit (s : State) (p : Nat) : Bool := (s.byte (dataIndex (p / 8))).getLsbD (7 - p % 8)

/-- R132: the stream bits the buffer has room for. -/
def streamRoom (s : State) : Nat := 8 * (31 * s.params.nblk)

/-- R128: the bits `VAL[n-1]` down to `VAL[0]` appended one by one. -/
def putBits (v : Word) : Nat → State → Flow
  | 0, s => .go s
  | j + 1, s => (putChunk (v.getLsbD j).toNat 1 s).andThen (putBits v j)

/-- The `n`-th byte that a packing from the cursor on writes: the first after the skip, then each next data byte. -/
def nthStored (s : State) : Nat → Nat
  | 0 => skip s.byteIndex
  | n + 1 => skip (nthStored s n + 1)

/-- R131, R128: the stream bits from bit `p` on are the low bits of the values, each field's most significant first. -/
def readsBack (t : State) : Nat → List (Word × BitVec 6) → Prop
  | _, [] => True
  | p, f :: fs =>
    (∀ j < f.2.toNat, streamBit t (p + f.2.toNat - 1 - j) = f.1.getLsbD j) ∧ readsBack t (p + f.2.toNat) fs

/-- R166: the commands that pack values converted ahead, in field order. -/
def packing (fs : List (Word × BitVec 6)) : List Instr := fs.flatMap fun f => [.ldv f.1, .append f.2]

/-- The stream bits of a sequence of fields. -/
def fieldBits (fs : List (Word × BitVec 6)) : Nat := (fs.map fun f => f.2.toNat).sum

/-! ## Texts -/

/-- `n` spaces. -/
def spaces (n : Nat) : Text := List.replicate n 0x20

/-- R82: `sign?`. -/
def SignText (t : Text) : Prop := t = [] ∨ t = [0x2B] ∨ t = [0x2D]

/-- R82: `exponent?` and its value. -/
def ExponentText (t : Text) (e : Int) : Prop :=
  (t = [] ∧ e = 0) ∨
    ∃ (c : Byte) (sign digits : Text), t = c :: (sign ++ digits) ∧ (c = 0x65 ∨ c = 0x45) ∧ SignText sign ∧
      digits.all isDigit ∧ 1 ≤ digits.length ∧ digits.length ≤ 4 ∧
      e = (if sign = [0x2D] then -1 else 1) * (digitsVal digits : Int)

/-- R82: `number` and the number it denotes. -/
def NumberText (t : Text) (x : Number) : Prop :=
  ∃ (sign whole point frac exp : Text) (e : Int),
    t = sign ++ whole ++ point ++ frac ++ exp ∧ SignText sign ∧ whole.all isDigit ∧ frac.all isDigit ∧
      ((point = [] ∧ frac = []) ∨ point = [0x2E]) ∧ (whole ≠ [] ∨ frac ≠ []) ∧ ExponentText exp e ∧
      x.neg = decide (sign = [0x2D]) ∧
      x.mag = (digitsVal (whole ++ frac) : Rat) * (10 : Rat) ^ e / (10 : Rat) ^ frac.length

/-- R88: two digits of a number below 100. -/
def twoDigits (n : Nat) : Text := [BitVec.ofNat 8 (0x30 + n / 10), BitVec.ofNat 8 (0x30 + n % 10)]

/-- R88: the ten characters `YYYY-MM-DD` of a date. -/
def dateText (t : Date) : Text :=
  twoDigits (t.y / 100) ++ twoDigits (t.y % 100) ++ [0x2D] ++ twoDigits t.m ++ [0x2D] ++ twoDigits t.d

/-- R87: the day after, by the month lengths and the leap years. -/
def nextDate (t : Date) : Date :=
  if t.d < monthDays t.y t.m then ⟨t.y, t.m, t.d + 1⟩
  else if t.m < 12 then ⟨t.y, t.m + 1, 1⟩
  else ⟨t.y + 1, 1, 1⟩

/-! ## Values -/

/-- R83: what `round` gives for an exact half `m + 1/2`. -/
def halfRounded (tie : RoundTie) (m : Int) : Int :=
  match tie with
  | .halfUp => m + 1
  | .halfEven => if m % 2 = 0 then m else m + 1
  | .halfAway => if 0 ≤ m then m + 1 else m

/-- The magnitude of a finite single-precision pattern without its sign (R63: exponent biased by 127, 23 fraction
bits; exponent field 0 is gradual underflow). -/
def singleVal (p : Nat) : Rat :=
  if p / 2 ^ 23 = 0 then (p : Rat) * (2 : Rat) ^ (-149 : Int)
  else ((2 ^ 23 + p % 2 ^ 23 : Nat) : Rat) * (2 : Rat) ^ ((p / 2 ^ 23 : Nat) - 150 : Int)

end Sys2Proof.Machine
end

