-- ==== Sys2Proof/Certificates/Slice0/Obligations.lean ====
section
/-! DEFINITION. The statements about the model, for the provers. Each docstring names the rules of spec/ it rests on. -/

open Sys2Proof Sys2Proof.Machine

/-! ## Reset, the step and the whole machine -/

/-- R24, R210: the registers after reset, and no byte of `BUF` with a known value. -/
def Obligations.ResetRegisterValues : Prop :=
  State.reset.val = none ∧ State.reset.fidx = 0 ∧ State.reset.cur.byteIndex = 1 ∧ State.reset.cur.bitOffset = 0 ∧
    State.reset.err = .none ∧ ∀ i, Memory.get? State.reset.buf i = none

/-- R16, R24: the reset state meets the invariant, and the second half of R16 (c). -/
def Obligations.ResetMeetsInv : Prop := State.reset.Inv ∧ State.reset.FreeBitsClear

/-- R16 (a), (b), (c, the index), R6, R30: every step keeps the invariant. -/
def Obligations.StepKeepsInv : Prop :=
  ∀ s t : State, s.Inv → step s = .next t → t.Inv

/-- R16 (c), the second half: every step keeps the bits below the cursor 0, but for a `FILL` inside a byte whose pattern
has one of those bits set (R161, log entry 9). Under the all-zero pattern that is every step. And the `CRST` that R197 has
the host send after a `FILL` makes it hold again, whatever the pattern. -/
def Obligations.StepKeepsFreeBitsClear : Prop :=
  (∀ s : State, s.Inv → ∃ t, runAll [.fill, .crst] s = .next t ∧ t.Inv ∧ t.FreeBitsClear) ∧
  ∀ s t : State, s.Inv → s.FreeBitsClear → step s = .next t →
    ((fetch s).1 = .command .fill → s.bitOffset ≠ 0 →
      ∀ j < 8 - s.bitOffset, ((s.params.initPat.marks.lookup s.byteIndex).getD s.params.initPat.fill).getLsbD j = false) →
    t.FreeBitsClear

/-- R50, R8: a step runs the command whose packet stands first in what the host sent, to its end, in the state with the
packet taken; the bytes after the packet are the host's next act. -/
def Obligations.StepRunsDecodedCommand : Prop :=
  ∀ (s : State) (bytes rest : List Byte) (acts : List HostAct) (i : Instr), decode bytes = .ok (i, rest) →
    step { s with host := .send bytes :: acts } =
      exec i { s with host := if rest = [] then acts else .send rest :: acts }

/-- R210, R24: a hardware reset between commands gives the registers of R24 and forgets the buffer; with nothing sent
the CORE waits, and nothing changes. The kept parameters and counters are the model's own (log entries 1, 2 and 6). -/
def Obligations.StepResetsAndWaits : Prop :=
  ∀ s : State,
    (∀ acts, ∃ t, step { s with host := .reset :: acts } = .next t ∧ t.val = none ∧ t.fidx = 0 ∧
      t.cur = { byteIndex := 1, bitOffset := 0 } ∧ t.err = .none ∧ t.buf = [] ∧ t.host = acts ∧ t.params = s.params) ∧
    (s.host = [] → step s = .next s)

/-- The opcode-table word placed by `withFetchWord` is the next command. -/
def Obligations.PlacedWordRunsNext : Prop :=
  ∀ (s : State) (nbits w : Nat) (i : Instr), decodeTableWord nbits w = some i → step (s.withFetchWord nbits w) = exec i s

/-- R6, R20: no step changes the parameters. -/
def Obligations.StepKeepsParameters : Prop :=
  ∀ s t : State, step s = .next t → t.params = s.params

/-- R188: while an error is recorded every command but `FILL` ends with no change to any state. -/
def Obligations.FaultedCommandsAreInert : Prop :=
  ∀ (i : Instr) (s : State), i.wf → i ≠ .fill → s.err ≠ .none → exec i s = .next s

/-- R189: an error goes away by `FILL` or by a hardware reset only. -/
def Obligations.OnlyFillAndResetClearErrors : Prop :=
  ∀ s t : State, step s = .next t → s.err ≠ .none → t.err = .none →
    (fetch s).1 = .command .fill ∨ (fetch s).1 = .hostReset

/-- R38, R180: no step from a state of the invariant stops with a fault of the model. -/
def Obligations.NoStepFaults : Prop :=
  ∀ (s : State) (r : Fault), s.Inv → step s ≠ .fault r

/-- R127, R84, R58: the only refusals of well-formed commands: `APPEND` of an absent `VAL`, and an integer that 32 bits
do not hold. -/
def Obligations.CommandsRefuseOnlyWhereStated : Prop :=
  ∀ (i : Instr) (s : State) (r : Refusal), i.wf → exec i s = .refused r →
    s.err = .none ∧
      ((r = .valAbsent ∧ s.val = none ∧ ∃ len, i = .append len) ∨
        (r = .resultOutOfRange ∧ ∃ raw rng, i = .cvtUnint raw rng ∨ i = .cvtConres raw rng ∨ i = .cvtConrelres raw rng))

/-- R11: once `VAL` holds a value it holds one until a reset. -/
def Obligations.ValHoldsAValueUntilReset : Prop :=
  ∀ s t : State, step s = .next t → s.val ≠ none → (fetch s).1 ≠ .hostReset → t.val ≠ none

/-! ## Encoding -/

/-- R50 to R57: decoding an encoded well-formed command gives it back, with the bytes after it. -/
def Obligations.DecodeEncodeRoundTrip : Prop :=
  ∀ (i : Instr) (rest : List Byte), i.wf → decode (encode i ++ rest) = .ok (i, rest)

/-- R58: the decoder accepts nothing but encodings of well-formed commands. -/
def Obligations.DecodedBytesAreAnEncoding : Prop :=
  ∀ (bytes rest : List Byte) (i : Instr), decode bytes = .ok (i, rest) → i.wf ∧ bytes = encode i ++ rest

/-- R58: the reserved encodings, each with the verdict "reserved" that names it. -/
def Obligations.ReservedEncodingsAreRejected : Prop :=
  (∀ (op arg : Byte) (bs : List Byte),
    op ∉ [0x01, 0x02, 0x03, 0x10, 0x11, 0x12, 0x13, 0x14, 0x15, 0x16, 0x17, 0x20, 0x21, 0x30] →
      decode (op :: arg :: bs) = .error .opcode) ∧
  (∀ (op arg : Byte) (bs : List Byte),
    op ∈ [0x01, 0x02, 0x03, 0x10, 0x11, 0x12, 0x13, 0x14, 0x15, 0x16, 0x17, 0x21, 0x30] → arg ≠ 0 →
      decode (op :: arg :: bs) = .error .arg) ∧
  (∀ (arg : Byte) (bs : List Byte), 64 ≤ arg.toNat → decode (0x20 :: arg :: bs) = .error .highBits) ∧
  (∀ (arg : Byte) (bs : List Byte), arg = 0 ∨ (33 ≤ arg.toNat ∧ arg.toNat ≤ 63) →
    decode (0x20 :: arg :: bs) = .error .len) ∧
  (∀ (i : Instr) (n : Nat), i.wf → n < (encode i).length → decode ((encode i).take n) = .error .truncated)

/-- R58: a step refuses what the host sends where the decoder's verdict on it is "reserved". That a packet ends where
the act that sends it ends is the model's choice (log entry 21). -/
def Obligations.StepRefusesReserved : Prop :=
  ∀ (s : State) (bytes : List Byte) (acts : List HostAct) (why : Reserved), bytes ≠ [] → decode bytes = .error why →
    step { s with host := .send bytes :: acts } = .refused (.reservedEncoding why)

/-- R51 to R57: words written out from the spec's tables and the instructions they stand for. -/
def Obligations.WrittenOutWordsDecode : Prop :=
  decode [0b00000001, 0b00000000] = .ok (.fill, []) ∧
  decode [0b00000010, 0b00000000] = .ok (.crst, []) ∧
  decode [0b00000011, 0, 0xDE, 0xAD, 0xBE, 0xEF] = .ok (.ldv 0xDEADBEEF, []) ∧
  decode [0b00010000, 0, 1, 0x35, 0] = .ok (.cvtUnint [0x35] [], []) ∧
  decode [0b00010111, 0, 1, 0x35, 2, 0x7A, 0x7A] = .ok (.cvtUnrec true [0x35] [0x7A, 0x7A], []) ∧
  decode [0b00100000, 0b00001010] = .ok (.append 10, []) ∧
  decode [0b00100001, 0] = .ok (.term, []) ∧
  decode [0b00110000, 0] = .ok (.csum, [])

/-! ## Lifecycle commands -/

/-- R161: `FILL` writes every byte from `INITPAT` and clears `ERR`, whatever the state; nothing else changes; and it is
the only command that runs while an error is recorded. -/
def Obligations.FillWritesThePattern : Prop :=
  encode .fill = [0x01, 0x00] ∧
  (∀ s : State, ∃ t, exec .fill s = .next t ∧ t.err = .none ∧ t.val = s.val ∧ t.fidx = s.fidx ∧ t.cur = s.cur ∧
    t.params = s.params ∧ t.host = s.host ∧ t.draws = s.draws ∧ t.resets = s.resets ∧
    ∀ i < s.bufSize, t.byte i = (s.params.initPat.marks.lookup i).getD s.params.initPat.fill) ∧
  ∀ (i : Instr) (s : State), i.wf → i ≠ .fill → s.err ≠ .none → exec i s = .next s

/-- R123: `CRST`. -/
def Obligations.CrstStartsAPass : Prop :=
  encode .crst = [0x02, 0x00] ∧
  ∀ s : State,
    (s.err = .none → exec .crst s = .next { s with cur := { byteIndex := 1, bitOffset := 0 }, fidx := 0 }) ∧
    (s.err ≠ .none → exec .crst s = .next s)

/-- R124: `LDV`, and the `CVT.UNINT` that does the same. -/
def Obligations.LdvLoadsVal : Prop :=
  ∀ (s : State) (imm : Word),
    (encode (.ldv imm)).take 2 = [0x03, 0x00] ∧
    (s.err = .none → exec (.ldv imm) s = .next { s with val := some imm }) ∧
    (s.err ≠ .none → exec (.ldv imm) s = .next s) ∧
    ∀ (raw rng : Text) (x : Number), decimal? raw = some x → x.val = imm.toNat →
      exec (.cvtUnint raw rng) s = exec (.ldv imm) s

/-! ## The Type Converter -/

/-- R82: exactly the texts of the grammar are decimal numbers, with the value and the sign flag the notation gives. -/
def Obligations.DecimalGrammar : Prop :=
  ∀ (t : Text) (x : Number), decimal? t = some x ↔ ∃ a b u, t = spaces a ++ u ++ spaces b ∧ NumberText u x

/-- R84: `to_u32`. -/
def Obligations.ToU32Rule : Prop :=
  ∀ n : Int,
    (-2 ^ 31 ≤ n ∧ n ≤ 2 ^ 32 - 1 → ∃ v, toU32 n = some v ∧ (v.toNat : Int) = n % 2 ^ 32) ∧
    (¬(-2 ^ 31 ≤ n ∧ n ≤ 2 ^ 32 - 1) → toU32 n = none)

/-- R83: `round` of a rational number, and the three ways with an exact half. -/
def Obligations.RoundRule : Prop :=
  ∀ (tie : RoundTie) (q : ℚ),
    (∀ n : ℤ, |(n : ℚ) - q| < 1 / 2 → roundRat tie q = n) ∧
    (∀ m : ℤ, q = m + 1 / 2 →
      roundRat .halfUp q = m + 1 ∧
      roundRat .halfEven q = (if m % 2 = 0 then m else m + 1) ∧
      roundRat .halfAway q = (if 0 < q then m + 1 else m))

/-- R85: `CVT.UNINT`. `n` is the decimal number truncated toward zero. -/
def Obligations.UnintWritesTheTruncatedNumber : Prop :=
  ∀ (s : State) (raw rng : Text), (encode (.cvtUnint raw rng)).take 2 = [0x10, 0x00] ∧
    (s.err ≠ .none → exec (.cvtUnint raw rng) s = .next s) ∧
    (s.err = .none →
      (decimal? raw = none → exec (.cvtUnint raw rng) s = .next { s with err := .parseError }) ∧
      ∀ x, decimal? raw = some x →
        ∃ n : ℤ, |(n : ℚ)| ≤ |x.val| ∧ |x.val| < |(n : ℚ)| + 1 ∧ 0 ≤ (n : ℚ) * x.val ∧
          (-2 ^ 31 ≤ n ∧ n ≤ 2 ^ 32 - 1 →
            exec (.cvtUnint raw rng) s = .next { s with val := some (BitVec.ofInt 32 n) }) ∧
          (¬(-2 ^ 31 ≤ n ∧ n ≤ 2 ^ 32 - 1) → exec (.cvtUnint raw rng) s = .refused .resultOutOfRange))

/-- R86: `CVT.CHR5`. Bit `j` of `VAL` is bit `j mod 5` of character `j div 5`, and 0 past the last character; every text
converts. -/
def Obligations.Chr5FillsTheLanes : Prop :=
  ∀ (s : State) (raw rng : Text), (encode (.cvtChr5 raw rng)).take 2 = [0x11, 0x00] ∧
    (s.err ≠ .none → exec (.cvtChr5 raw rng) s = .next s) ∧
    (s.err = .none → ∃ v : Word, exec (.cvtChr5 raw rng) s = .next { s with val := some v } ∧
      ∀ j < 32, v.getLsbD j = ((raw[j / 5]?).map fun c => c.getLsbD (j % 5)).getD false)

/-- R88: exactly the texts `YYYY-MM-DD` of dates that exist, with spaces around them, are date texts. -/
def Obligations.DateGrammar : Prop :=
  ∀ (t : Text) (d : Date), date? t = some d ↔
    d.y ≤ 9999 ∧ 1 ≤ d.m ∧ d.m ≤ 12 ∧ 1 ≤ d.d ∧ d.d ≤ monthDays d.y d.m ∧
      ∃ a b, t = spaces a ++ dateText d ++ spaces b

/-- R87: the day count is that of the calendar: 10227 for 1998-01-01, and one more each day, by the leap years and the
month lengths. -/
def Obligations.DayCountFollowsTheCalendar : Prop :=
  dayCount ⟨1998, 1, 1⟩ = 10227 ∧ dayCount ⟨1970, 1, 1⟩ = 0 ∧
    ∀ d : Date, d.valid → (nextDate d).valid ∧ dayCount (nextDate d) = dayCount d + 1

/-- R89: `CVT.DATE`; the number of days always fits. -/
def Obligations.DateWritesTheDayNumber : Prop :=
  ∀ (s : State) (raw rng : Text), (encode (.cvtDate raw rng)).take 2 = [0x12, 0x00] ∧
    (s.err ≠ .none → exec (.cvtDate raw rng) s = .next s) ∧
    (s.err = .none →
      (date? raw = none → exec (.cvtDate raw rng) s = .next { s with err := .parseError }) ∧
      ∀ d, date? raw = some d →
        -729755 ≤ dayCount d - 10227 ∧ dayCount d - 10227 ≤ 2922669 ∧
          exec (.cvtDate raw rng) s = .next { s with val := some (BitVec.ofInt 32 (dayCount d - 10227)) })

/-- R90: exactly the texts of the grammar are `CONRES` range specs. -/
def Obligations.ConresGrammar : Prop :=
  ∀ (t : Text) (spec : RangeSpec), conresSpec? t = some spec ↔
    ∃ (lo hi st : Text) (x y z : Number) (a b c d e f : Nat),
      t = spaces a ++ lo ++ spaces (b + 1) ++ [0x74, 0x6F] ++ spaces (c + 1) ++ hi ++ spaces (d + 1) ++
          [0x73, 0x74, 0x65, 0x70] ++ spaces (e + 1) ++ st ++ spaces f ∧
        NumberText lo x ∧ NumberText hi y ∧ NumberText st z ∧ spec = ⟨x.val, y.val, z.val⟩

/-- R93: exactly the texts of the grammar are `CONRELRES` range specs. -/
def Obligations.ConrelresGrammar : Prop :=
  ∀ (t : Text) (spec : RangeSpec), conrelresSpec? t = some spec ↔
    ∃ (lo hi pct : Text) (x y z : Number) (a b c d e : Nat),
      t = spaces a ++ lo ++ spaces (b + 1) ++ [0x74, 0x6F] ++ spaces (c + 1) ++ hi ++ spaces (d + 1) ++
          [0xB1] ++ pct ++ [0x25] ++ spaces e ∧
        NumberText lo x ∧ NumberText hi y ∧ NumberText pct z ∧ spec = ⟨x.val, y.val, z.val⟩

/-- R91: `CVT.CONRES`, case by case. -/
def Obligations.ConresWritesTheIndex : Prop :=
  ∀ (s : State) (raw rng : Text), (encode (.cvtConres raw rng)).take 2 = [0x13, 0x00] ∧
    (s.err ≠ .none → exec (.cvtConres raw rng) s = .next s) ∧
    (s.err = .none →
      (decimal? raw = none → exec (.cvtConres raw rng) s = .next { s with err := .parseError }) ∧
      (conresSpec? rng = none → exec (.cvtConres raw rng) s = .next { s with err := .parseError }) ∧
      ∀ x spec, decimal? raw = some x → conresSpec? rng = some spec →
        (spec.res = 0 → exec (.cvtConres raw rng) s = .next { s with err := .parseError }) ∧
        (spec.res ≠ 0 → ∀ n, n = roundRat s.params.roundTie ((x.val - spec.min) / spec.res) →
          (-2 ^ 31 ≤ n ∧ n ≤ 2 ^ 32 - 1 →
            exec (.cvtConres raw rng) s = .next { s with val := some (BitVec.ofInt 32 n) }) ∧
          (¬(-2 ^ 31 ≤ n ∧ n ≤ 2 ^ 32 - 1) → exec (.cvtConres raw rng) s = .refused .resultOutOfRange)))

/-- R99 for `CONRES`: the index stands for a value within half a step of the raw value. -/
def Obligations.ConresIndexWithinHalfAStep : Prop :=
  ∀ (tie : RoundTie) (v lo st : ℚ), st ≠ 0 → |lo + st * roundRat tie ((v - lo) / st) - v| ≤ |st| / 2

/-- R94, R95: `floorLog` is the floor of the real quotient of logarithms with a rational number added, for every base
and ratio R94 admits: the comparison of powers of R95 is exact. -/
def Obligations.FloorLogIsExact : Prop :=
  ∀ r b c : ℚ, 0 < r → 0 < b → b ≠ 1 →
    floorLog r b c = ⌊Real.log (r : ℝ) / Real.log (b : ℝ) + (c : ℝ)⌋

/-- R94, R95, R83: the integer `CVT.CONRELRES` writes is the real quotient of logarithms rounded; an exact half goes by
`ROUND_TIE`; within `EPS_LN` of a half, and not at one, it is one of the two neighbours, whatever the free choice; at an exact half,
and farther than `EPS_LN` from every half, nothing is drawn. -/
def Obligations.ChosenLogIsTheRoundedQuotient : Prop :=
  ∀ (s : State) (r b : ℚ), s.params.wf → 0 < r → 0 < b → b ≠ 1 →
    let x := Real.log (r : ℝ) / Real.log (b : ℝ)
    let n := (chooseLog r b s).1
    (∀ m : ℤ, x = m + 1 / 2 → n = halfRounded s.params.roundTie m) ∧
    ((∀ m : ℤ, x ≠ m + 1 / 2) →
      |x - n| < 1 / 2 ∨ ∃ m : ℤ, |x - (m + 1 / 2)| ≤ (s.params.epsLn : ℝ) ∧ (n = m ∨ n = m + 1)) ∧
    ((∃ m : ℤ, x = m + 1 / 2) ∨ (∀ m : ℤ, (s.params.epsLn : ℝ) < |x - (m + 1 / 2)|) → (chooseLog r b s).2 = s)

/-- R94: `CVT.CONRELRES`, case by case. -/
def Obligations.ConrelresWritesTheIndex : Prop :=
  ∀ (s : State) (raw rng : Text), (encode (.cvtConrelres raw rng)).take 2 = [0x14, 0x00] ∧
    (s.err ≠ .none → exec (.cvtConrelres raw rng) s = .next s) ∧
    (s.err = .none →
      (decimal? raw = none → exec (.cvtConrelres raw rng) s = .next { s with err := .parseError }) ∧
      (conrelresSpec? rng = none → exec (.cvtConrelres raw rng) s = .next { s with err := .parseError }) ∧
      ∀ x spec r b, decimal? raw = some x → conrelresSpec? rng = some spec → r = x.val / spec.min →
        b = 1 + 2 * spec.res / 100 →
        (spec.min = 0 ∨ r ≤ 0 ∨ b ≤ 0 ∨ b = 1 →
          exec (.cvtConrelres raw rng) s = .next { s with err := .parseError }) ∧
        (spec.min ≠ 0 → 0 < r → 0 < b → b ≠ 1 → ∀ n, n = (chooseLog r b s).1 →
          (-2 ^ 31 ≤ n ∧ n ≤ 2 ^ 32 - 1 → ∃ t, exec (.cvtConrelres raw rng) s = .next t ∧
            t = { s with val := some (BitVec.ofInt 32 n), draws := t.draws }) ∧
          (¬(-2 ^ 31 ≤ n ∧ n ≤ 2 ^ 32 - 1) → exec (.cvtConrelres raw rng) s = .refused .resultOutOfRange)))

/-- R96: `CVT.SINGLE`; every decimal number converts. -/
def Obligations.SingleWritesThePattern : Prop :=
  ∀ (s : State) (raw rng : Text), (encode (.cvtSingle raw rng)).take 2 = [0x15, 0x00] ∧
    (s.err ≠ .none → exec (.cvtSingle raw rng) s = .next s) ∧
    (s.err = .none →
      (decimal? raw = none → exec (.cvtSingle raw rng) s = .next { s with err := .parseError }) ∧
      ∀ x, decimal? raw = some x → ∃ v : Word, exec (.cvtSingle raw rng) s = .next { s with val := some v } ∧
        v.getLsbD 31 = x.neg ∧ v.toNat % 2 ^ 31 = singleMag x.mag)

/-- R96: the pattern is that of the nearest single-precision number, a tie going to the even fraction; from half a unit
above the largest finite number on it is infinity. -/
def Obligations.SingleIsCorrectlyRounded : Prop :=
  ∀ q : ℚ, 0 ≤ q →
    (q < (2 ^ 25 - 1) * 2 ^ 103 → singleMag q < 0x7F800000 ∧
      ∀ p < 0x7F800000, p ≠ singleMag q →
        |singleVal (singleMag q) - q| < |singleVal p - q| ∨
          (|singleVal (singleMag q) - q| = |singleVal p - q| ∧ singleMag q % 2 = 0)) ∧
    ((2 ^ 25 - 1) * 2 ^ 103 ≤ q → singleMag q = 0x7F800000)

/-- R97: `CVT.UNREC` always raises `UnrecognizedType`, unless an error is recorded. -/
def Obligations.UnrecRaisesUnrecognizedType : Prop :=
  ∀ (s : State) (tag7 : Bool) (raw rng : Text),
    (encode (.cvtUnrec tag7 raw rng)).take 2 = [if tag7 then 0x17 else 0x16, 0x00] ∧
    (s.err = .none → exec (.cvtUnrec tag7 raw rng) s = .next { s with err := .unrecognizedType }) ∧
    (s.err ≠ .none → exec (.cvtUnrec tag7 raw rng) s = .next s)

/-- R187: an error a conversion raises changes nothing but `ERR`. -/
def Obligations.ConversionErrorsArePrecise : Prop :=
  ∀ (i : Instr) (s t : State), isConvert i → exec i s = .next t → t.err ≠ .none → t = { s with err := t.err }

/-- R23, R80: the frame of the commands that touch registers only. -/
def Obligations.RegisterCommandsFrame : Prop :=
  ∀ (i : Instr) (s t : State), isConvert i ∨ i = .crst ∨ (∃ imm, i = .ldv imm) → exec i s = .next t →
    (∀ a, t.byte a = s.byte a) ∧ t.params = s.params ∧ t.host = s.host ∧ t.resets = s.resets ∧
    (i ≠ .crst → t.fidx = s.fidx ∧ t.cur = s.cur) ∧
    (i = .crst → t.val = s.val) ∧
    (isConvert i = false → t.err = s.err) ∧
    ((∀ raw rng, i ≠ .cvtConrelres raw rng) → t.draws = s.draws)

/-! ## The Bit Packer -/

/-- R34, R122: the data bytes are numbered as `idx` says, the skip goes from each to the next, and no `idx(k)` is
reserved. -/
def Obligations.DataBytesAreNumberedByIdx : Prop :=
  (∀ k, dataIndex k % 32 ≠ 0 ∧ skip (dataIndex k + 1) = dataIndex (k + 1)) ∧
  (∀ i, i % 32 ≠ 0 → dataIndex (i - 1 - i / 32) = i) ∧ dataIndex 0 = 1

/-- R37, R186: the guarded write, and what raising an error changes. -/
def Obligations.MemWriteIsGuarded : Prop :=
  ∀ (s : State) (i b : Nat),
    (s.bufSize ≤ i → memWrite i b s = .ended (.next { s with err := .bufferOverflow })) ∧
    (i < s.bufSize → ∃ t, memWrite i b s = .go t ∧ t = { s with buf := t.buf } ∧ (t.byte i).toNat = b % 256 ∧
      ∀ a, a ≠ i → t.byte a = s.byte a)

/-- R120, R127, R128, R34, R13, R33: where there is room for the field, `APPEND` completes: the low `len` bits of `VAL`
are the next stream bits, the most significant first; the bits of the last byte below them are 0; every earlier stream
bit, every later data byte and every reserved byte is as it was; the cursor is behind the field; `FIDX` counts it;
nothing else changes. -/
def Obligations.AppendAddsTheFieldToTheStream : Prop :=
  ∀ (s : State) (len : BitVec 6) (v : Word), s.Inv → s.err = .none → s.val = some v → 1 ≤ len.toNat → len.toNat ≤ 32 →
    streamPos s + len.toNat ≤ streamRoom s →
    ∃ t, exec (.append len) s = .next t ∧ t.err = .none ∧ t.val = s.val ∧
      t.fidx.toNat = min (s.fidx.toNat + 1) 65535 ∧ t.params = s.params ∧ t.host = s.host ∧ t.draws = s.draws ∧
      t.resets = s.resets ∧
      t.byteIndex = dataIndex ((streamPos s + len.toNat) / 8) ∧ t.bitOffset = (streamPos s + len.toNat) % 8 ∧
      (∀ j < len.toNat, streamBit t (streamPos s + len.toNat - 1 - j) = v.getLsbD j) ∧
      (∀ p < streamPos s, streamBit t p = streamBit s p) ∧
      (∀ p, streamPos s + len.toNat ≤ p → p / 8 = (streamPos s + len.toNat - 1) / 8 → streamBit t p = false) ∧
      (∀ k, (streamPos s + len.toNat - 1) / 8 < k → t.byte (dataIndex k) = s.byte (dataIndex k)) ∧
      ∀ b, t.byte (32 * b) = s.byte (32 * b)

/-- R127, R183, R187: where there is no room for the whole field, `APPEND` raises `BufferOverflow`: the cursor stands at
the refused index with `bitOffset` 0, `FIDX` and `VAL` are as they were, and the earlier stream bits stay. -/
def Obligations.AppendOverflowsWithoutRoom : Prop :=
  ∀ (s : State) (len : BitVec 6) (v : Word), s.Inv → s.err = .none → s.val = some v → 1 ≤ len.toNat → len.toNat ≤ 32 →
    streamRoom s < streamPos s + len.toNat →
    ∃ t, exec (.append len) s = .next t ∧ t.err = .bufferOverflow ∧ t.val = s.val ∧ t.fidx = s.fidx ∧
      t.byteIndex = s.bufSize + 1 ∧ t.bitOffset = 0 ∧ t.params = s.params ∧ t.host = s.host ∧ t.draws = s.draws ∧
      t.resets = s.resets ∧
      (∀ p, streamPos s ≤ p → p < streamRoom s →
        streamBit t p = v.getLsbD (streamPos s + len.toNat - 1 - p)) ∧
      ∀ p < streamPos s, streamBit t p = streamBit s p

/-- R128: `APPEND` without a fault leaves the same buffer and the same cursor as its bits appended one by one. -/
def Obligations.AppendEqualsBitSerial : Prop :=
  ∀ (s : State) (len : BitVec 6) (v : Word), s.Inv → s.err = .none → s.val = some v → 1 ≤ len.toNat → len.toNat ≤ 32 →
    streamPos s + len.toNat ≤ streamRoom s →
    ∃ t u, exec (.append len) s = .next t ∧ putBits v len.toNat s = .go u ∧ t.cur = u.cur ∧ t.buf = u.buf

/-- R127, U9 of 93_implementation_defined.md, R58: `APPEND` is refused while `VAL` holds no value, and for a reserved
`len`. -/
def Obligations.AppendRefusals : Prop :=
  ∀ (s : State) (len : BitVec 6),
    (1 ≤ len.toNat → len.toNat ≤ 32 → s.err = .none → s.val = none → exec (.append len) s = .refused .valAbsent) ∧
    (len.toNat = 0 ∨ 32 < len.toNat → exec (.append len) s = .refused (.reservedEncoding .len))

/-- R129: `TERM` moves to the next byte from a partly filled one and writes 0xFF there; it changes no other byte and no
register but the cursor. Beyond the buffer it raises `BufferOverflow`. -/
def Obligations.TermWritesTheTerminator : Prop :=
  encode .term = [0x21, 0x00] ∧ (∀ s : State, s.err ≠ .none → exec .term s = .next s) ∧
  ∀ (s : State) (T : Nat), s.Inv → s.err = .none →
    T = (if s.bitOffset = 0 then s.byteIndex else skip (s.byteIndex + 1)) →
    (T < s.bufSize → ∃ t, exec .term s = .next t ∧ t.byte T = 0xFF ∧ (∀ a, a ≠ T → t.byte a = s.byte a) ∧
      t.byteIndex = skip (T + 1) ∧ t.bitOffset = 0 ∧ t = { s with cur := t.cur, buf := t.buf }) ∧
    (s.bufSize ≤ T → ∃ t, exec .term s = .next t ∧ t.byteIndex = T ∧ t.bitOffset = 0 ∧
      t = { s with cur := t.cur, err := .bufferOverflow })

/-- R39, R23: the frame of `APPEND`, fault or not. The bytes it may store to are the `ceil((o + len) / 8)` data bytes from
the cursor's on, each found from the one before by the packer's own skip. -/
def Obligations.AppendStoresOnlyItsBytes : Prop :=
  ∀ (s t : State) (len : BitVec 6), s.Inv → exec (.append len) s = .next t →
    (∀ a, (∀ n < (s.bitOffset + len.toNat + 7) / 8, a ≠ nthStored s n) → t.byte a = s.byte a) ∧
      t.val = s.val ∧ t.params = s.params ∧ t.host = s.host ∧ t.draws = s.draws ∧ t.resets = s.resets

/-- R130: the packer never writes a reserved byte, and its cursor hops over them. -/
def Obligations.PackerNeverWritesReservedBytes : Prop :=
  ∀ (s t : State) (i : Instr), s.Inv → i = .term ∨ (∃ len, i = .append len) → exec i s = .next t →
    t.byteIndex % 32 ≠ 0 ∧ ∀ b, Memory.get? t.buf (32 * b) = Memory.get? s.buf (32 * b)

/-- R132: a terminator fits exactly when the `P` stream bits before it leave it a data byte. -/
def Obligations.TerminatorFitsByCapacity : Prop :=
  ∀ s : State, s.Inv → s.err = .none →
    ∃ t, exec .term s = .next t ∧ (t.err = .none ↔ (streamPos s + 7) / 8 + 1 ≤ 31 * s.params.nblk)

/-! ## The Block Checksum Calculator -/

/-- R150, R151: `CSUM` writes into the reserved byte of every block up to the cursor's the negated sum of its data bytes,
and changes nothing else. -/
def Obligations.CsumWritesTheChecksums : Prop :=
  encode .csum = [0x30, 0x00] ∧ (∀ s : State, s.err ≠ .none → exec .csum s = .next s) ∧
  ∀ (s : State) (HB : Nat), s.Inv → s.err = .none → HB = min (s.byteIndex / 32) (s.params.nblk - 1) →
    ∃ t, exec .csum s = .next t ∧ t = { s with buf := t.buf } ∧
      (∀ b ≤ HB, ((t.byte (32 * b)).toNat : ℤ) =
        (-(∑ j ∈ Finset.range 31, (s.byte (32 * b + (j + 1))).toInt)) % 256) ∧
      ∀ a, (∀ b ≤ HB, a ≠ 32 * b) → t.byte a = s.byte a

/-- R152: after `CSUM` the 32 bytes of every block it covers sum to 0 modulo 256, and it covers every block with a byte
before the cursor. -/
def Obligations.ChecksummedBlocksSumToZero : Prop :=
  ∀ (s t : State) (HB : Nat), s.Inv → s.err = .none → HB = min (s.byteIndex / 32) (s.params.nblk - 1) →
    exec .csum s = .next t →
    (∀ b ≤ HB, (∑ j ∈ Finset.range 32, (t.byte (32 * b + j)).toNat) % 256 = 0) ∧
      ∀ i < s.bufSize, i < s.byteIndex → i / 32 ≤ HB

/-- R153: a second `CSUM` changes nothing. -/
def Obligations.CsumIsIdempotent : Prop :=
  ∀ s t : State, s.Inv → exec .csum s = .next t → exec .csum t = .next t

/-! ## A whole pass -/

/-- R131, R132: a pass over fields that fit with the terminator after them runs to its end without an error, `TERM` and
`CSUM` included, and every field is read back from the finished buffer at the place the packer gave it. -/
def Obligations.PassReadsBackEveryField : Prop :=
  ∀ (s : State) (fs : List (Word × BitVec 6)), s.Inv → s.err = .none →
    (∀ f ∈ fs, 1 ≤ f.2.toNat ∧ f.2.toNat ≤ 32) → (streamPos s + fieldBits fs + 7) / 8 + 1 ≤ 31 * s.params.nblk →
    ∃ t, runAll (packing fs ++ [.term, .csum]) s = .next t ∧ t.err = .none ∧ readsBack t (streamPos s) fs

/-- R165, R188: after a fault the rest of a sequence has no effect, up to the next `FILL`. -/
def Obligations.RestOfAFaultedPassIsInert : Prop :=
  ∀ (is : List Instr) (s : State), (∀ i ∈ is, i.wf ∧ i ≠ .fill) → s.err ≠ .none → runAll is s = .next s

/-! ## The host's side -/

/-- R166: `LDV` of the value a conversion gives, in place of the conversion, leaves the same state (but for the counter of
free choices, the model's own), so the `APPEND` after it does the same. -/
def Obligations.ConvertedAheadOfPacking : Prop :=
  ∀ (i : Instr) (s t : State), isConvert i → s.err = .none → exec i s = .next t → t.err = .none →
    ∃ v, t.val = some v ∧ exec (.ldv v) s = .next { t with draws := s.draws }

/-- R22, R17: the status port. -/
def Obligations.StatusPortReadsTheRegisters : Prop :=
  ∀ s : State, statusPort s 0 = s.val ∧
    (statusPort s 1).map BitVec.toNat = some s.byteIndex ∧ (statusPort s 2).map BitVec.toNat = some s.bitOffset ∧
    (statusPort s 3).map BitVec.toNat = some s.fidx.toNat ∧
    (statusPort s 4).map BitVec.toNat = some (match s.err with
      | .none => 0 | .parseError => 1 | .unrecognizedType => 2 | .bufferOverflow => 3)

/-- R65: `HEX` gives byte `i` as characters `2i` and `2i + 1`, the high nibble first. -/
def Obligations.HexRendersEachByte : Prop :=
  ∀ bytes : List Byte, (hex bytes).length = 2 * bytes.length ∧
    ∀ i (h : i < bytes.length),
      (hex bytes)[2 * i]? = "0123456789ABCDEF".toList[bytes[i].toNat / 16]? ∧
      (hex bytes)[2 * i + 1]? = "0123456789ABCDEF".toList[bytes[i].toNat % 16]?

/-- R196, R187: the read port gives the bytes of `BUF` in order while no error is recorded, and nothing otherwise. -/
def Obligations.ReadPortGivesTheBuffer : Prop :=
  ∀ s : State, (s.err ≠ .none → readPort s = none) ∧
    (s.err = .none → ∃ bytes, readPort s = some bytes ∧ bytes.length = s.bufSize ∧
      ∀ i < s.bufSize, bytes[i]? = some (s.byte i))
end

