-- ==== Sys2Proof/Laws/Arith.lean ====
section
/-! SUPPORT. What each operation of the converter's arithmetic does: the search for the largest number with a property,
the comparison of powers, and rounding. -/

namespace Sys2Proof.Machine

/-! ## The largest number with a property -/

theorem refine_spec {holds : Nat → Bool} (j : Nat) {a : Nat} (ha : holds a) (hb : ¬holds (a + 2 ^ j)) :
    holds (refine holds j a) ∧ ¬holds (refine holds j a + 1) := by
  induction j generalizing a with
  | zero => exact ⟨ha, hb⟩
  | succ j ih =>
    unfold refine
    split_ifs with h
    · exact ih h (by rwa [Nat.add_assoc, ← Nat.two_mul, ← Nat.pow_succ'])
    · exact ih ha h

theorem climb_spec {holds : Nat → Bool} (fuel j : Nat) (h : ¬holds (2 ^ (j + fuel))) :
    ¬holds (2 ^ climb holds fuel j) := by
  induction fuel generalizing j with
  | zero => exact h
  | succ fuel ih =>
    unfold climb
    split_ifs with h1
    · exact ih (j + 1) (by rwa [show j + 1 + fuel = j + (fuel + 1) by omega])
    · exact h1

/-- `largest` finds the last number of an unbroken run from 0. -/
theorem largest_spec {holds : Nat → Bool} (fuel : Nat) (h0 : holds 0) (hf : ¬holds (2 ^ fuel)) :
    holds (largest holds fuel) ∧ ¬holds (largest holds fuel + 1) :=
  refine_spec _ h0 (by simpa using climb_spec fuel 0 (by simpa using hf))

/-- `largestInt` finds the integer where a property of integers ends. -/
theorem largestInt_spec {holds : Int → Bool} (fuel : Nat) (hlo : holds (-2 ^ fuel)) (hhi : ¬holds (2 ^ fuel)) :
    holds (largestInt holds fuel) ∧ ¬holds (largestInt holds fuel + 1) := by
  unfold largestInt
  split_ifs with h0
  · have := largest_spec (holds := fun n => holds n) fuel h0 (by simpa using hhi)
    simpa using this
  · have := largest_spec (holds := fun n => !holds (-(n : Int))) fuel (by simpa using h0) (by simpa using hlo)
    simp only [Bool.not_eq_true'] at this
    refine ⟨?_, ?_⟩
    · have h := this.2
      push_cast at h
      simpa using h
    · rw [show -(((largest (fun n => !holds (-(n : Int))) fuel : Nat) : Int) + 1) + 1 =
        -((largest (fun n => !holds (-(n : Int))) fuel : Nat) : Int) by ring]
      simp [this.1]

/-! ## Powers -/

/-- R95: `powLe` compares an integer power of one positive fraction with a power of another. -/
theorem powLe_iff {p q u v : Nat} (hp : 0 < p) (hq : 0 < q) (hv : 0 < v) (e : Int) (n : Nat) :
    powLe p q u v e n = true ↔ ((p : ℝ) / q) ^ e ≤ ((u : ℝ) / v) ^ n := by
  have hp' : (0 : ℝ) < p := by exact_mod_cast hp
  have hq' : (0 : ℝ) < q := by exact_mod_cast hq
  have hv' : (0 : ℝ) < v := by exact_mod_cast hv
  cases e with
  | ofNat k =>
    simp only [powLe, decide_eq_true_eq, Int.ofNat_eq_natCast, zpow_natCast, div_pow]
    rw [div_le_div_iff₀ (by positivity) (by positivity)]
    exact_mod_cast Iff.rfl
  | negSucc k =>
    simp only [powLe, decide_eq_true_eq, zpow_negSucc, div_pow, inv_div]
    rw [div_le_div_iff₀ (by positivity) (by positivity)]
    exact_mod_cast Iff.rfl

/-- A positive rational number as a fraction of whole numbers. -/
theorem ratFraction {r : Rat} (h : 0 < r) : (r.num.toNat : ℝ) / r.den = r ∧ 0 < r.num.toNat := by
  have hn : 0 < r.num := Rat.num_pos.mpr h
  refine ⟨?_, by omega⟩
  have : (r.num.toNat : ℝ) = (r.num : ℝ) := by exact_mod_cast Int.toNat_of_nonneg hn.le
  rw [this]
  exact_mod_cast Rat.num_div_den r

/-! ## Single precision -/

theorem log2_bounds {n : Nat} (h : 0 < n) : (2 : Rat) ^ Nat.log2 n ≤ n ∧ (n : Rat) < 2 ^ (Nat.log2 n + 1) :=
  ⟨by exact_mod_cast Nat.log2_self_le (by omega), by exact_mod_cast Nat.lt_log2_self⟩

/-- R96: `ilog2` gives the binary exponent. -/
theorem ilog2_spec {q : Rat} (h : 0 < q) : (2 : Rat) ^ ilog2 q ≤ q ∧ q < (2 : Rat) ^ (ilog2 q + 1) := by
  have hn : 0 < q.num := Rat.num_pos.mpr h
  obtain ⟨a1, a2⟩ := log2_bounds (show 0 < q.num.toNat by omega)
  obtain ⟨b1, b2⟩ := log2_bounds q.den_pos
  have e : (q.num.toNat : Rat) = q * q.den := by
    rw [Rat.mul_den_eq_num]
    exact_mod_cast Int.toNat_of_nonneg hn.le
  have hd : (0 : Rat) < q.den := by exact_mod_cast q.den_pos
  rw [e] at a1 a2
  unfold ilog2
  generalize Nat.log2 q.num.toNat = a at *
  generalize Nat.log2 q.den = d at *
  have h1 : (2 : Rat) ^ ((a : Int) - d) * 2 ^ d = 2 ^ a := by
    rw [← zpow_natCast, ← zpow_natCast, ← zpow_add₀ (by norm_num)]
    congr 1
    ring
  have hlt : q < (2 : Rat) ^ ((a : Int) - d + 1) := by
    rw [zpow_add_one₀ (by norm_num)]
    have : q * q.den < (2 : Rat) ^ ((a : Int) - d) * 2 * q.den := by
      calc q * q.den < 2 ^ (a + 1) := a2
        _ = (2 : Rat) ^ ((a : Int) - d) * 2 * 2 ^ d := by rw [pow_succ, ← h1]; ring
        _ ≤ _ := by gcongr
    exact lt_of_mul_lt_mul_right this hd.le
  have hgt : (2 : Rat) ^ ((a : Int) - d - 1) ≤ q := by
    rw [zpow_sub_one₀ (by norm_num)]
    have : (2 : Rat) ^ ((a : Int) - d) * 2⁻¹ * q.den ≤ q * q.den := by
      calc (2 : Rat) ^ ((a : Int) - d) * 2⁻¹ * q.den ≤ (2 : Rat) ^ ((a : Int) - d) * 2⁻¹ * 2 ^ (d + 1) := by gcongr
        _ = 2 ^ a := by rw [pow_succ, ← h1]; ring
        _ ≤ _ := a1
    exact le_of_mul_le_mul_right this hd
  simp only
  split_ifs with hc
  · exact ⟨hc, hlt⟩
  · exact ⟨hgt, by simpa using hc⟩

/-- R96: `roundEven` gives a nearest integer, the even one where two are nearest. -/
theorem roundEven_spec {m : Rat} (h : 0 ≤ m) :
    |(roundEven m : Rat) - m| ≤ 1 / 2 ∧ (|(roundEven m : Rat) - m| = 1 / 2 → roundEven m % 2 = 0) := by
  have hf : (m.floor.toNat : Rat) = (⌊m⌋ : Rat) := by
    exact_mod_cast Int.toNat_of_nonneg (Int.floor_nonneg.mpr h)
  have h1 := Int.floor_le m
  have h2 := Int.lt_floor_add_one m
  rw [← hf] at h1 h2
  unfold roundEven
  simp only
  generalize m.floor.toNat = f at *
  split_ifs with hc
  · push_cast
    rw [abs_of_nonneg (by linarith)]
    rcases hc with hc | ⟨hc, hodd⟩
    · exact ⟨by linarith, fun h => by linarith⟩
    · exact ⟨by linarith, fun _ => by omega⟩
  · rw [abs_of_nonpos (by linarith)]
    push Not at hc
    exact ⟨by linarith [hc.1], fun h => by have := hc.2 (by linarith); omega⟩

end Sys2Proof.Machine
end

