-- ==== Sys2Proof/Laws/State.lean ====
section
/-! SUPPORT. One lemma for each field of the state under each update. -/

namespace Sys2Proof.Machine

section
variable (s : State) (i o : Nat) (b : Byte)

@[simp] theorem setByte_val : (s.setByte i b).val = s.val := rfl
@[simp] theorem setByte_fidx : (s.setByte i b).fidx = s.fidx := rfl
@[simp] theorem setByte_cur : (s.setByte i b).cur = s.cur := rfl
@[simp] theorem setByte_err : (s.setByte i b).err = s.err := rfl
@[simp] theorem setByte_buf : (s.setByte i b).buf = Memory.put s.buf i b := rfl
@[simp] theorem setByte_params : (s.setByte i b).params = s.params := rfl
@[simp] theorem setByte_host : (s.setByte i b).host = s.host := rfl
@[simp] theorem setByte_draws : (s.setByte i b).draws = s.draws := rfl
@[simp] theorem setByte_resets : (s.setByte i b).resets = s.resets := rfl
@[simp] theorem setByte_byteIndex : (s.setByte i b).byteIndex = s.byteIndex := rfl
@[simp] theorem setByte_bitOffset : (s.setByte i b).bitOffset = s.bitOffset := rfl
@[simp] theorem setByte_bufSize : (s.setByte i b).bufSize = s.bufSize := rfl

@[simp] theorem moveTo_val : (s.moveTo i o).val = s.val := rfl
@[simp] theorem moveTo_fidx : (s.moveTo i o).fidx = s.fidx := rfl
@[simp] theorem moveTo_err : (s.moveTo i o).err = s.err := rfl
@[simp] theorem moveTo_buf : (s.moveTo i o).buf = s.buf := rfl
@[simp] theorem moveTo_params : (s.moveTo i o).params = s.params := rfl
@[simp] theorem moveTo_host : (s.moveTo i o).host = s.host := rfl
@[simp] theorem moveTo_draws : (s.moveTo i o).draws = s.draws := rfl
@[simp] theorem moveTo_resets : (s.moveTo i o).resets = s.resets := rfl
@[simp] theorem moveTo_bufSize : (s.moveTo i o).bufSize = s.bufSize := rfl
@[simp] theorem moveTo_byte (a : Nat) : (s.moveTo i o).byte a = s.byte a := rfl
@[simp] theorem moveTo_byteIndex : (s.moveTo i o).byteIndex = i % 2 ^ 16 := by
  simp [State.byteIndex, State.moveTo]
@[simp] theorem moveTo_bitOffset : (s.moveTo i o).bitOffset = o % 8 := by
  simp [State.bitOffset, State.moveTo]

@[simp] theorem clearErr_val : (clearErr s).val = s.val := rfl
@[simp] theorem clearErr_fidx : (clearErr s).fidx = s.fidx := rfl
@[simp] theorem clearErr_cur : (clearErr s).cur = s.cur := rfl
@[simp] theorem clearErr_err : (clearErr s).err = .none := rfl
@[simp] theorem clearErr_buf : (clearErr s).buf = s.buf := rfl
@[simp] theorem clearErr_params : (clearErr s).params = s.params := rfl
@[simp] theorem clearErr_host : (clearErr s).host = s.host := rfl
@[simp] theorem clearErr_draws : (clearErr s).draws = s.draws := rfl
@[simp] theorem clearErr_resets : (clearErr s).resets = s.resets := rfl
@[simp] theorem clearErr_byte (a : Nat) : (clearErr s).byte a = s.byte a := rfl

@[simp] theorem countField_val : (countField s).val = s.val := rfl
@[simp] theorem countField_cur : (countField s).cur = s.cur := rfl
@[simp] theorem countField_err : (countField s).err = s.err := rfl
@[simp] theorem countField_buf : (countField s).buf = s.buf := rfl
@[simp] theorem countField_params : (countField s).params = s.params := rfl
@[simp] theorem countField_host : (countField s).host = s.host := rfl
@[simp] theorem countField_draws : (countField s).draws = s.draws := rfl
@[simp] theorem countField_resets : (countField s).resets = s.resets := rfl
@[simp] theorem countField_byte (a : Nat) : (countField s).byte a = s.byte a := rfl
@[simp] theorem countField_byteIndex : (countField s).byteIndex = s.byteIndex := rfl
@[simp] theorem countField_bitOffset : (countField s).bitOffset = s.bitOffset := rfl
@[simp] theorem countField_bufSize : (countField s).bufSize = s.bufSize := rfl
theorem countField_fidx : (countField s).fidx.toNat = min (s.fidx.toNat + 1) 65535 := by
  have := s.fidx.isLt
  simp only [countField, BitVec.toNat_ofNat]
  omega

@[simp] theorem hardReset_val : (hardReset s).val = none := rfl
@[simp] theorem hardReset_fidx : (hardReset s).fidx = 0 := rfl
@[simp] theorem hardReset_cur : (hardReset s).cur = { byteIndex := 1, bitOffset := 0 } := rfl
@[simp] theorem hardReset_err : (hardReset s).err = .none := rfl
@[simp] theorem hardReset_buf : (hardReset s).buf = [] := rfl
@[simp] theorem hardReset_params : (hardReset s).params = s.params := rfl
@[simp] theorem hardReset_host : (hardReset s).host = s.host := rfl
@[simp] theorem hardReset_draws : (hardReset s).draws = s.draws := rfl
@[simp] theorem hardReset_resets : (hardReset s).resets = s.resets + 1 := rfl

@[simp] theorem sendFirst_host (bs : List Byte) : (sendFirst bs s).host = .send bs :: s.host := rfl
@[simp] theorem sendFirst_err (bs : List Byte) : (sendFirst bs s).err = s.err := rfl
@[simp] theorem sendFirst_buf (bs : List Byte) : (sendFirst bs s).buf = s.buf := rfl

theorem byteIndex_lt : s.byteIndex < 2 ^ 16 := s.cur.byteIndex.isLt
theorem bitOffset_lt : s.bitOffset < 8 := s.cur.bitOffset.isLt

end

end Sys2Proof.Machine
end

