-- ==== Sys2Proof/Laws/Memory.lean ====
section
/-! SUPPORT. The laws of the buffer as data: reading after writing, the canonical form, and equality of memories. -/

namespace Sys2Proof.Machine

theorem Memory.get?_put (m : Memory) (i : Nat) (b : Byte) (j : Nat) :
    Memory.get? (Memory.put m i b) j = if j = i then some b else Memory.get? m j := by
  induction m with
  | nil => simp [Memory.put, Memory.get?, eq_comm]
  | cons c m ih =>
    unfold Memory.put
    by_cases h1 : i < c.1
    · simp [h1, Memory.get?, eq_comm]
    · by_cases h2 : i = c.1
      · by_cases hj : j = i
        · simp [h2, Memory.get?, show j = c.1 by omega]
        · simp [h2, Memory.get?, show ¬j = c.1 by omega, show ¬c.1 = j by omega]
      · rw [if_neg h1, if_neg h2]
        by_cases hj : c.1 = j
        · simp [Memory.get?, hj, show ¬j = i by omega]
        · simp [Memory.get?, hj, ih]

theorem Memory.mem_put {m : Memory} {i : Nat} {b : Byte} {c : Host.Cell} (h : c ∈ Memory.put m i b) :
    c = (i, b) ∨ c ∈ m := by
  induction m with
  | nil => simpa [Memory.put] using h
  | cons d m ih =>
    unfold Memory.put at h
    split_ifs at h with h1 h2
    · simpa using h
    · rcases List.mem_cons.mp h with h | h <;> simp [h]
    · rcases List.mem_cons.mp h with h | h
      · simp [h]
      · rcases ih h with h | h <;> simp [h]

/-- A write keeps the canonical form. -/
theorem Memory.put_wf {m : Memory} (i : Nat) (b : Byte) (h : Memory.wf m) : Memory.wf (Memory.put m i b) := by
  induction m with
  | nil => simp [Memory.put]
  | cons c m ih =>
    obtain ⟨hc, hm⟩ := List.pairwise_cons.mp h
    unfold Memory.put
    split_ifs with h1 h2
    · refine List.pairwise_cons.mpr ⟨fun d hd => ?_, h⟩
      rcases List.mem_cons.mp hd with rfl | hd
      · exact h1
      · exact h1.trans (hc d hd)
    · subst h2
      exact List.pairwise_cons.mpr ⟨hc, hm⟩
    · refine List.pairwise_cons.mpr ⟨fun d hd => ?_, ih hm⟩
      rcases Memory.mem_put hd with rfl | hd
      · dsimp only
        omega
      · exact hc d hd

theorem Memory.get?_of_lt {m : Memory} {i : Nat} (h : ∀ c ∈ m, i < c.1) : Memory.get? m i = none := by
  induction m with
  | nil => rfl
  | cons c m ih =>
    have hc := h c (by simp)
    simp only [Memory.get?, if_neg (show ¬c.1 = i by omega)]
    exact ih fun d hd => h d (by simp [hd])

theorem Memory.mem_of_get? {m : Memory} {i : Nat} {b : Byte} (h : Memory.get? m i = some b) : (i, b) ∈ m := by
  induction m with
  | nil => simp [Memory.get?] at h
  | cons c m ih =>
    unfold Memory.get? at h
    split_ifs at h with hc
    · obtain ⟨x, y⟩ := c
      simp_all
    · simp [ih h]

/-- Two canonical memories that read the same are the same list. -/
theorem Memory.ext {m n : Memory} (hm : Memory.wf m) (hn : Memory.wf n)
    (h : ∀ i, Memory.get? m i = Memory.get? n i) : m = n := by
  induction m generalizing n with
  | nil =>
    cases n with
    | nil => rfl
    | cons d n => simpa [Memory.get?] using h d.1
  | cons c m ih =>
    cases n with
    | nil => simpa [Memory.get?] using h c.1
    | cons d n =>
      obtain ⟨hc, hm'⟩ := List.pairwise_cons.mp hm
      obtain ⟨hd, hn'⟩ := List.pairwise_cons.mp hn
      have hcm := Memory.get?_of_lt hc
      have hdn := Memory.get?_of_lt hd
      have h1 := h c.1
      have h2 := h d.1
      obtain ⟨i, b⟩ := c
      obtain ⟨j, e⟩ := d
      have hij : i = j := by
        by_contra hne
        simp only [Memory.get?, if_neg (Ne.symm hne), if_neg hne, if_true] at h1 h2
        have a1 := hd _ (Memory.mem_of_get? h1.symm)
        have a2 := hc _ (Memory.mem_of_get? h2)
        dsimp only at a1 a2
        omega
      subst hij
      have hbe : b = e := by simpa [Memory.get?] using h1
      subst hbe
      congr 1
      refine ih hm' hn' fun k => ?_
      by_cases hk : i = k
      · subst hk
        exact hcm.trans hdn.symm
      · simpa [Memory.get?, hk] using h k

/-- Writing what is there changes nothing. -/
theorem Memory.put_same {m : Memory} {i : Nat} {b : Byte} (h : Memory.wf m) (hb : Memory.get? m i = some b) :
    Memory.put m i b = m := by
  refine Memory.ext (Memory.put_wf i b h) h fun j => ?_
  rw [Memory.get?_put]
  split_ifs with hj
  · rw [hj, hb]
  · rfl

/-- The second write to an index is the one that counts. -/
theorem Memory.put_put (m : Memory) (i : Nat) (b c : Byte) (h : Memory.wf m) :
    Memory.put (Memory.put m i b) i c = Memory.put m i c := by
  refine Memory.ext (Memory.put_wf i c (Memory.put_wf i b h)) (Memory.put_wf i c h) fun j => ?_
  simp only [Memory.get?_put]
  split_ifs <;> rfl

/-- What a byte of the buffer reads as after a write. -/
theorem byte_setByte (s : State) (i : Nat) (b : Byte) (a : Nat) :
    (s.setByte i b).byte a = if a = i then b else s.byte a := by
  simp only [State.byte, setByte_buf, setByte_resets, Memory.get?_put]
  split_ifs <;> rfl

/-- A table of the bytes 0 to `n - 1` in order is canonical and reads as the table says. -/
theorem Memory.table_wf (f : Nat → Byte) (n : Nat) : Memory.wf ((List.range n).map fun i => (i, f i)) := by
  rw [Memory.wf, List.pairwise_map]
  exact List.pairwise_lt_range.imp fun h => h

theorem Memory.get?_append (m n : Memory) (i : Nat) :
    Memory.get? (m ++ n) i = (Memory.get? m i).or (Memory.get? n i) := by
  induction m with
  | nil => simp [Memory.get?]
  | cons c m ih =>
    simp only [List.cons_append, Memory.get?]
    split_ifs <;> simp [ih]

theorem Memory.get?_table (f : Nat → Byte) (n i : Nat) :
    Memory.get? ((List.range n).map fun i => (i, f i)) i = if i < n then some (f i) else none := by
  induction n with
  | zero => simp [Memory.get?]
  | succ n ih =>
    rw [List.range_succ, List.map_append, Memory.get?_append, ih]
    by_cases h1 : i < n
    · simp [h1, show i < n + 1 by omega]
    · by_cases h2 : n = i
      · simp [Memory.get?, h2]
      · simp [Memory.get?, h1, h2, show ¬i < n + 1 by omega]

end Sys2Proof.Machine
end

