-- ==== Sys2Proof/Laws/Packer.lean ====
section
/-! SUPPORT. What the packer's operations do, said once: `put_chunk`, the chunks of a field and the bit-serial form of
R128 all append bits to the stream of R34 (`PacksTo`). -/

namespace Sys2Proof.Machine

/-! ## Positions -/

/-- The number of the data byte at index `i` (R34). -/
def dataNumber (i : Nat) : Nat := i - 1 - i / 32

theorem dataNumber_dataIndex (k : Nat) : dataNumber (dataIndex k) = k := by
  unfold dataNumber dataIndex; omega

theorem dataIndex_dataNumber {i : Nat} (h : i % 32 ≠ 0) : dataIndex (dataNumber i) = i := by
  unfold dataNumber dataIndex; omega

theorem dataIndex_mod (k : Nat) : dataIndex k % 32 ≠ 0 := by
  unfold dataIndex; omega

theorem streamPos_eq (s : State) : streamPos s = 8 * dataNumber s.byteIndex + s.bitOffset := rfl

theorem skip_of_mod_ne {i : Nat} (h : i % Config.block ≠ 0) : skip i = i := by simp [skip, h]

theorem skip_mod (i : Nat) : skip i % 32 ≠ 0 := by
  unfold skip Config.block; split_ifs <;> omega

theorem skip_succ_dataIndex (k : Nat) : skip (dataIndex k + 1) = dataIndex (k + 1) := by
  unfold skip dataIndex Config.block; split_ifs <;> omega

theorem bufSize_eq (s : State) : s.bufSize = 32 * s.params.nblk := rfl

/-- A data byte is inside the buffer exactly when its stream bits are within the room. -/
theorem dataNumber_lt {i n : Nat} (h : i % 32 ≠ 0) : dataNumber i < 31 * n ↔ i < 32 * n := by
  unfold dataNumber; omega

theorem State.Inv.bufSize_le {s : State} (h : s.Inv) : 32 ≤ s.bufSize ∧ s.bufSize ≤ 65504 := by
  obtain ⟨h1, h2, -⟩ := h.params
  rw [bufSize_eq]
  unfold Config.nblkMax at h2
  omega

theorem moveTo_self (s : State) : s.moveTo s.byteIndex s.bitOffset = s := by
  simp [State.moveTo, State.byteIndex, State.bitOffset]

/-- Under the invariant the stream position never passes the room. -/
theorem State.Inv.streamPos_le {s : State} (h : s.Inv) : streamPos s ≤ streamRoom s := by
  have h1 := h.notReserved
  have h2 := h.bounded
  have h3 := h.partlyFilled
  have h4 := bitOffset_lt s
  rw [bufSize_eq] at h2 h3
  unfold streamPos streamRoom
  unfold Config.block at h1
  by_cases h0 : s.bitOffset = 0
  · omega
  · have := h3 h0
    omega

/-! ## Appending bits -/

/-- Stream bit `p` after the `L` bits of the number `v` are appended to `s`; past them it is 0 (R33). -/
def packedBit (s : State) (L v p : Nat) : Bool :=
  if p < streamPos s then streamBit s p else if p < streamPos s + L then v.testBit (streamPos s + L - 1 - p) else false

/-- The indices that appending `L` bits writes. -/
def packedAt (s : State) (L a : Nat) : Prop :=
  0 < L ∧ a % 32 ≠ 0 ∧ streamPos s / 8 ≤ dataNumber a ∧ 8 * dataNumber a < streamPos s + L

/-- `t` is `s` with the `L` bits of `v` appended to the stream, the most significant first. -/
structure Packed (s : State) (L v : Nat) (t : State) : Prop where
  rest : t = { s with cur := t.cur, buf := t.buf }
  canonical : Memory.wf t.buf
  byteIndex : t.byteIndex = dataIndex ((streamPos s + L) / 8)
  bitOffset : t.bitOffset = (streamPos s + L) % 8
  written : ∀ a, packedAt s L a → ∃ b : Byte, Memory.get? t.buf a = some b ∧
    ∀ j < 8, b.getLsbD j = packedBit s L v (8 * dataNumber a + (7 - j))
  kept : ∀ a, ¬packedAt s L a → Memory.get? t.buf a = Memory.get? s.buf a

section
variable {s t : State} {L v : Nat} (h : Packed s L v t)
include h

theorem Packed.val : t.val = s.val := by rw [h.rest]
theorem Packed.fidx : t.fidx = s.fidx := by rw [h.rest]
theorem Packed.err : t.err = s.err := by rw [h.rest]
theorem Packed.params : t.params = s.params := by rw [h.rest]
theorem Packed.host : t.host = s.host := by rw [h.rest]
theorem Packed.draws : t.draws = s.draws := by rw [h.rest]
theorem Packed.resets : t.resets = s.resets := by rw [h.rest]
theorem Packed.bufSize : t.bufSize = s.bufSize := by rw [bufSize_eq, bufSize_eq, h.params]
theorem Packed.room : streamRoom t = streamRoom s := by unfold streamRoom; rw [h.params]

theorem Packed.pos : streamPos t = streamPos s + L := by
  rw [streamPos_eq, h.byteIndex, h.bitOffset, dataNumber_dataIndex]
  omega

/-- A byte outside the written ones reads as before. -/
theorem Packed.byte_kept {a : Nat} (ha : ¬packedAt s L a) : t.byte a = s.byte a := by
  unfold State.byte
  rw [h.kept a ha, h.resets]

/-- Every stream bit up to the end of the last byte written. -/
theorem Packed.bits {p : Nat} (hp : 8 * (p / 8) < streamPos s + L) (hL : p < streamPos s ∨ 0 < L) :
    streamBit t p = packedBit s L v p := by
  have e : 8 * dataNumber (dataIndex (p / 8)) + (7 - (7 - p % 8)) = p := by
    rw [dataNumber_dataIndex]; omega
  by_cases ha : packedAt s L (dataIndex (p / 8))
  · obtain ⟨b, hb, hbits⟩ := h.written _ ha
    unfold streamBit State.byte
    rw [hb, Option.getD_some, hbits _ (by omega), e]
  · have hlt : p < streamPos s := by
      have h1 := dataIndex_mod (p / 8)
      by_contra hge
      refine ha ⟨by omega, h1, ?_, ?_⟩ <;> rw [dataNumber_dataIndex] <;> omega
    unfold packedBit
    rw [if_pos hlt]
    unfold streamBit
    rw [h.byte_kept ha]

/-- Appending bits keeps the invariant while there is room. -/
theorem Packed.inv (hs : s.Inv) (hr : streamPos s + L ≤ streamRoom s) : t.Inv := by
  have hroom : streamRoom s = 8 * (31 * s.params.nblk) := rfl
  refine ⟨h.params ▸ hs.params, h.canonical, ?_, ?_, ?_, ?_⟩
  · intro c hc
    rw [h.bufSize]
    have hg : ∃ b, Memory.get? t.buf c.1 = some b := by
      by_contra hne
      have hnone : Memory.get? t.buf c.1 = none := by
        cases hx : Memory.get? t.buf c.1 with
        | none => rfl
        | some b => exact absurd ⟨b, hx⟩ hne
      have : ∀ (m : Memory), c ∈ m → Memory.get? m c.1 ≠ none := by
        intro m
        induction m with
        | nil => simp
        | cons d m ih =>
          intro hm
          unfold Memory.get?
          split_ifs with hd
          · simp
          · rcases List.mem_cons.mp hm with rfl | hm
            · exact absurd rfl hd
            · exact ih hm
      exact this _ hc hnone
    obtain ⟨b, hb⟩ := hg
    by_cases ha : packedAt s L c.1
    · obtain ⟨-, h1, -, h3⟩ := ha
      rw [bufSize_eq]
      refine (dataNumber_lt h1).mp ?_
      omega
    · rw [h.kept _ ha] at hb
      exact hs.inside (c.1, b) (Memory.mem_of_get? hb)
  · rw [h.byteIndex]
    exact dataIndex_mod _
  · rw [h.byteIndex, h.bufSize, bufSize_eq]
    unfold dataIndex
    omega
  · intro ho
    rw [h.bitOffset] at ho
    rw [h.byteIndex, h.bufSize, bufSize_eq]
    refine (dataNumber_lt (dataIndex_mod _)).mp ?_
    rw [dataNumber_dataIndex]
    omega

/-- The result of appending given bits is determined. -/
theorem Packed.unique {u : State} (hu : Packed s L v u) : t = u := by
  have hbuf : t.buf = u.buf := by
    refine Memory.ext h.canonical hu.canonical fun a => ?_
    by_cases ha : packedAt s L a
    · obtain ⟨b, hb, hbits⟩ := h.written a ha
      obtain ⟨c, hc, hcits⟩ := hu.written a ha
      rw [hb, hc]
      congr 1
      refine BitVec.eq_of_getLsbD_eq fun j hj => ?_
      rw [hbits j hj, hcits j hj]
    · rw [h.kept a ha, hu.kept a ha]
  have hcur : t.cur = u.cur := by
    have h1 := h.byteIndex.trans hu.byteIndex.symm
    have h2 := h.bitOffset.trans hu.bitOffset.symm
    unfold State.byteIndex at h1
    unfold State.bitOffset at h2
    have e1 := BitVec.eq_of_toNat_eq h1
    have e2 := BitVec.eq_of_toNat_eq h2
    cases ht : t.cur
    cases hc : u.cur
    simp_all
  rw [h.rest, hu.rest, hbuf, hcur]

end

theorem Packed.nothing {s : State} (hs : s.Inv) (v : Nat) : Packed s 0 v s := by
  have hm : s.byteIndex % 32 ≠ 0 := hs.notReserved
  have ho := bitOffset_lt s
  refine ⟨rfl, hs.canonical, ?_, ?_, fun a ha => absurd ha.1 (by omega), fun _ _ => rfl⟩
  · rw [streamPos_eq, show (8 * dataNumber s.byteIndex + s.bitOffset + 0) / 8 = dataNumber s.byteIndex by omega,
      dataIndex_dataNumber hm]
  · rw [streamPos_eq]; omega

/-- Appending bits and then more bits is appending all of them at once (R128). -/
theorem Packed.append {s t u : State} {L v M w : Nat} (h : Packed s L v t) (g : Packed t M w u) (hw : w < 2 ^ M) :
    Packed s (L + M) (2 ^ M * v + w) u := by
  have hP := h.pos
  have bits : ∀ p, 8 * (p / 8) < streamPos s + (L + M) → 0 < M → streamPos t / 8 ≤ p / 8 →
      packedBit t M w p = packedBit s (L + M) (2 ^ M * v + w) p := by
    intro p hp hM hk
    unfold packedBit
    rw [hP]
    by_cases h1 : p < streamPos s + L
    · rw [if_pos h1, h.bits (by omega) (by omega)]
      unfold packedBit
      by_cases h2 : p < streamPos s
      · rw [if_pos h2, if_pos h2]
      · rw [if_neg h2, if_neg h2, if_pos h1, if_pos (by omega), Nat.testBit_two_pow_mul_add _ hw,
          if_neg (by omega)]
        congr 1
        omega
    · rw [if_neg h1, if_neg (show ¬p < streamPos s by omega)]
      by_cases h3 : p < streamPos s + L + M
      · rw [if_pos h3, if_pos (by omega), Nat.testBit_two_pow_mul_add _ hw, if_pos (by omega)]
        congr 1
        omega
      · rw [if_neg h3, if_neg (by omega)]
  refine ⟨?_, g.canonical, ?_, ?_, ?_, ?_⟩
  · rw [g.rest, h.rest]
  · rw [g.byteIndex, hP, Nat.add_assoc]
  · rw [g.bitOffset, hP, Nat.add_assoc]
  · intro a ha
    obtain ⟨h0, h1, h2, h3⟩ := ha
    by_cases hg : packedAt t M a
    · obtain ⟨b, hb, hbits⟩ := g.written a hg
      refine ⟨b, hb, fun j hj => ?_⟩
      obtain ⟨g0, -, g2, g3⟩ := hg
      rw [hbits j hj, bits _ (by omega) g0 (by omega)]
    · have hh : packedAt s L a := by
        unfold packedAt at hg ⊢
        omega
      obtain ⟨b, hb, hbits⟩ := h.written a hh
      refine ⟨b, (g.kept a hg).trans hb, fun j hj => ?_⟩
      rw [hbits j hj]
      unfold packedBit
      obtain ⟨g0, -, g2, g3⟩ := hh
      by_cases h4 : 8 * dataNumber a + (7 - j) < streamPos s
      · rw [if_pos h4, if_pos h4]
      · rw [if_neg h4, if_neg h4]
        by_cases hM : M = 0
        · subst hM
          simp at hw
          subst hw
          simp
        · have h5 : 8 * dataNumber a + (7 - j) < streamPos s + L := by
            unfold packedAt at hg
            omega
          rw [if_pos h5, if_pos (by omega), Nat.testBit_two_pow_mul_add _ hw, if_neg (by omega)]
          congr 1
          omega
  · intro a ha
    rw [g.kept a, h.kept a]
    · unfold packedAt at ha ⊢
      omega
    · unfold packedAt at ha ⊢
      omega

/-! ## One byte -/

theorem memWrite_lt {i b : Nat} {s : State} (h : i < s.bufSize) :
    memWrite i b s = .go (s.setByte i (BitVec.ofNat 8 (b &&& 0xFF))) := by
  simp [memWrite, show ¬s.bufSize ≤ i by omega]

theorem memWrite_ge {i b : Nat} {s : State} (h : s.bufSize ≤ i) :
    memWrite i b s = .ended (raise .bufferOverflow s) := by
  simp [memWrite, h]

theorem advance_byteIndex (s : State) (h : s.byteIndex % 32 ≠ 0) (hb : s.byteIndex < 65504) :
    (advance s).byteIndex = dataIndex (dataNumber s.byteIndex + 1) := by
  have e := skip_succ_dataIndex (dataNumber s.byteIndex)
  rw [dataIndex_dataNumber h] at e
  unfold advance
  rw [moveTo_byteIndex, e, Nat.mod_eq_of_lt]
  unfold dataIndex dataNumber
  omega

/-- A write that fills the cursor's byte up to bit `o + L` appends `L` bits, if the byte written holds the old bits, the
new bits and zeros. -/
theorem packed_setByte {s : State} {L v : Nat} {b : Byte} (hs : s.Inv) (hL : 1 ≤ L) (ho : s.bitOffset + L ≤ 8)
    (hi : s.byteIndex < s.bufSize)
    (hb : ∀ j < 8, b.getLsbD j = packedBit s L v (8 * dataNumber s.byteIndex + (7 - j))) :
    Packed s L v (fillTo (s.bitOffset + L) (s.setByte s.byteIndex b)) := by
  have hm : s.byteIndex % 32 ≠ 0 := hs.notReserved
  have hB := hs.bufSize_le.2
  have hlt := byteIndex_lt s
  have hbuf : (fillTo (s.bitOffset + L) (s.setByte s.byteIndex b)).buf = Memory.put s.buf s.byteIndex b := by
    unfold fillTo advance; split_ifs <;> rfl
  have hPd : streamPos s / 8 = dataNumber s.byteIndex := by rw [streamPos_eq]; omega
  refine ⟨?_, hbuf ▸ Memory.put_wf _ _ hs.canonical, ?_, ?_, ?_, ?_⟩
  · unfold fillTo advance; split_ifs <;> rfl
  · rw [streamPos_eq]
    unfold fillTo
    split_ifs with h8
    · rw [advance_byteIndex (s.setByte s.byteIndex b) hm (by rw [setByte_byteIndex]; omega), setByte_byteIndex]
      congr 1
      omega
    · rw [moveTo_byteIndex, setByte_byteIndex, Nat.mod_eq_of_lt hlt,
        show (8 * dataNumber s.byteIndex + s.bitOffset + L) / 8 = dataNumber s.byteIndex by omega,
        dataIndex_dataNumber hm]
  · rw [streamPos_eq]
    unfold fillTo advance
    split_ifs with h8
    · rw [moveTo_bitOffset]; omega
    · rw [moveTo_bitOffset]; omega
  · intro a ha
    obtain ⟨-, h1, h2, h3⟩ := ha
    have ha : a = s.byteIndex := by
      rw [streamPos_eq] at h2 h3
      have : dataNumber a = dataNumber s.byteIndex := by omega
      rw [← dataIndex_dataNumber h1, this, dataIndex_dataNumber hm]
    subst ha
    exact ⟨b, by rw [hbuf, Memory.get?_put, if_pos rfl], hb⟩
  · intro a ha
    rw [hbuf, Memory.get?_put, if_neg]
    rintro rfl
    refine ha ⟨hL, hm, by omega, ?_⟩
    rw [streamPos_eq]; omega

/-! ## The packer's operations -/

/-- What an operation that appends the `L` bits of `v` ends in: all of them in the stream, or, where there is no room
for all, those there is room for and `BufferOverflow` (R37, R183). -/
def PacksTo (s : State) (L v : Nat) (f : Flow) : Prop :=
  (streamPos s + L ≤ streamRoom s ∧ ∃ t, Packed s L v t ∧ f = .go t) ∨
  (streamRoom s < streamPos s + L ∧ ∃ t, Packed s (streamRoom s - streamPos s) (v >>> (streamPos s + L - streamRoom s)) t ∧
    f = .ended (raise .bufferOverflow t))

theorem PacksTo.append {s : State} {L v M w : Nat} {f : Flow} {g : State → Flow} (h : PacksTo s L v f)
    (hs : s.Inv) (hw : w < 2 ^ M) (hg : ∀ t, Packed s L v t → t.Inv → PacksTo t M w (g t)) :
    PacksTo s (L + M) (2 ^ M * v + w) (f.andThen g) := by
  rcases h with ⟨hr, t, ht, rfl⟩ | ⟨hr, t, ht, rfl⟩
  · have hroom := ht.room
    have hpos := ht.pos
    rcases hg t ht (ht.inv hs hr) with ⟨gr, u, hu, he⟩ | ⟨gr, u, hu, he⟩
    · exact .inl ⟨by omega, u, ht.append hu hw, he⟩
    · refine .inr ⟨by omega, u, ?_, he⟩
      have e1 : streamPos s + (L + M) - streamRoom s = streamPos t + M - streamRoom t := by omega
      have e2 : streamRoom s - streamPos s = L + (streamRoom t - streamPos t) := by omega
      obtain ⟨k, hk⟩ : ∃ k, k = streamPos t + M - streamRoom t := ⟨_, rfl⟩
      obtain ⟨n, hn⟩ : ∃ n, n = streamRoom t - streamPos t := ⟨_, rfl⟩
      rw [e1, e2]
      rw [← hk, ← hn] at hu ⊢
      have hM : M = n + k := by omega
      have e3 : (2 ^ M * v + w) >>> k = 2 ^ n * v + w >>> k := by
        rw [Nat.shiftRight_eq_div_pow, Nat.shiftRight_eq_div_pow, hM, pow_add, mul_comm (2 ^ n), mul_assoc,
          Nat.mul_add_div (by positivity)]
      rw [e3]
      refine ht.append hu ?_
      rw [Nat.shiftRight_eq_div_pow, Nat.div_lt_iff_lt_mul (by positivity), ← pow_add, ← hM]
      exact hw
  · refine .inr ⟨by omega, t, ?_, rfl⟩
    obtain ⟨k, hk⟩ : ∃ k, k = streamPos s + L - streamRoom s := ⟨_, rfl⟩
    have e1 : streamPos s + (L + M) - streamRoom s = M + k := by omega
    have e3 : (2 ^ M * v + w) >>> (M + k) = v >>> k := by
      rw [Nat.shiftRight_add, Nat.shiftRight_eq_div_pow (2 ^ M * v + w), Nat.mul_add_div (by positivity),
        Nat.div_eq_of_lt hw, Nat.add_zero]
    rw [e1, e3, hk]
    exact ht

/-- The cursor is where the room ends: nothing can be written. -/
theorem State.Inv.full {s : State} (hs : s.Inv) : streamPos s < streamRoom s ↔ s.byteIndex < s.bufSize := by
  have h1 : s.byteIndex % 32 ≠ 0 := hs.notReserved
  have h2 := hs.bounded
  have h3 := hs.partlyFilled
  have h4 := bitOffset_lt s
  have h5 := @dataNumber_lt s.byteIndex s.params.nblk h1
  rw [bufSize_eq] at h2 h3 ⊢
  rw [streamPos_eq]
  unfold streamRoom
  constructor
  · intro h; exact h5.mp (by omega)
  · intro h; have := h5.mpr h; omega

theorem packsTo_full {s : State} {L v : Nat} (hs : s.Inv) (hL : 1 ≤ L) (hi : ¬s.byteIndex < s.bufSize) :
    PacksTo s L v (.ended (raise .bufferOverflow s)) := by
  have h1 := hs.full.not.mpr hi
  have h2 := hs.streamPos_le
  refine .inr ⟨by omega, s, ?_, rfl⟩
  have : streamRoom s - streamPos s = 0 := by omega
  rw [this]
  exact Packed.nothing hs _

theorem testBit_and_255 (n j : Nat) (hj : j < 8) : (n &&& 0xFF).testBit j = n.testBit j := by
  rw [show 0xFF = 2 ^ 8 - 1 from rfl, Nat.and_two_pow_sub_one_eq_mod, Nat.testBit_mod_two_pow]
  simp [hj]

theorem getLsbD_ofNat_8 (n j : Nat) (hj : j < 8) : (BitVec.ofNat 8 n).getLsbD j = n.testBit j := by
  rw [BitVec.getLsbD, BitVec.toNat_ofNat, Nat.testBit_mod_two_pow]
  simp [hj]

/-- `put_chunk` into an empty byte. -/
theorem putEmpty_packs {s : State} {L v : Nat} (hs : s.Inv) (h0 : s.bitOffset = 0) (hL : 1 ≤ L) (hL8 : L ≤ 8) :
    PacksTo s L v (putEmpty v L s) := by
  by_cases hi : s.byteIndex < s.bufSize
  · have hP : streamPos s = 8 * dataNumber s.byteIndex := by rw [streamPos_eq, h0]; rfl
    have hroom := hs.full.mpr hi
    refine .inl ⟨?_, fillTo L (s.setByte s.byteIndex (BitVec.ofNat 8 ((v <<< (8 - L)) &&& 0xFF &&& 0xFF))), ?_, ?_⟩
    · unfold streamRoom at hroom ⊢
      omega
    rotate_left
    · unfold putEmpty
      rw [memWrite_lt hi]
      rfl
    · have := packed_setByte (s := s) (L := L) (v := v)
        (b := BitVec.ofNat 8 ((v <<< (8 - L)) &&& 0xFF &&& 0xFF)) hs hL (by omega) hi ?_
      · rwa [h0, Nat.zero_add] at this
      intro j hj
      rw [getLsbD_ofNat_8 _ _ hj, testBit_and_255 _ _ hj, testBit_and_255 _ _ hj, Nat.testBit_shiftLeft]
      unfold packedBit
      rw [hP, if_neg (by omega)]
      by_cases h : 8 - L ≤ j
      · rw [if_pos (by omega)]
        simp only [ge_iff_le, h, decide_true, Bool.true_and]
        congr 1
        omega
      · rw [if_neg (by omega)]
        simp [h]
  · unfold putEmpty
    rw [memWrite_ge (by omega)]
    exact packsTo_full hs hL hi

theorem putChunk_empty {s : State} (hs : s.Inv) (h0 : s.bitOffset = 0) (v L : Nat) : putChunk v L s = putEmpty v L s := by
  have e : s.moveTo (skip s.byteIndex) s.bitOffset = s := by rw [skip_of_mod_ne hs.notReserved, moveTo_self]
  unfold putChunk
  simp only [e]
  rw [if_pos h0]

/-- The old bits of a partly filled byte, the mask of R125 applied. -/
theorem testBit_hiMask {o : Nat} (ho : o < 8) (j : Nat) (hj : j < 8) : (hiMask o).testBit j = decide (8 - o ≤ j) := by
  interval_cases o <;> interval_cases j <;> rfl

theorem streamBit_here {s : State} (hm : s.byteIndex % 32 ≠ 0) (j : Nat) (hj : j < 8) :
    streamBit s (8 * dataNumber s.byteIndex + (7 - j)) = (s.byte s.byteIndex).getLsbD j := by
  unfold streamBit
  rw [show (8 * dataNumber s.byteIndex + (7 - j)) / 8 = dataNumber s.byteIndex by omega, dataIndex_dataNumber hm]
  congr 1
  omega

/-- A byte that keeps the old top bits and takes `v` below them (R125). -/
theorem merged_bits {s : State} {L v : Nat} (hs : s.Inv) (ho : s.bitOffset + L ≤ 8) (hv : v < 2 ^ L) (j : Nat) (hj : j < 8)
    (h0 : s.bitOffset < 8) :
    (BitVec.ofNat 8 ((((s.byte s.byteIndex).toNat &&& hiMask s.bitOffset) ||| (v <<< (8 - s.bitOffset - L))) &&& 0xFF)).getLsbD j
      = packedBit s L v (8 * dataNumber s.byteIndex + (7 - j)) := by
  have hm : s.byteIndex % 32 ≠ 0 := hs.notReserved
  rw [getLsbD_ofNat_8 _ _ hj, testBit_and_255 _ _ hj, Nat.testBit_or, Nat.testBit_and, testBit_hiMask h0 j hj,
    Nat.testBit_shiftLeft]
  have hv' : ∀ k, L ≤ k → v.testBit k = false := fun k hk =>
    Nat.testBit_lt_two_pow (hv.trans_le (Nat.pow_le_pow_right (by omega) hk))
  unfold packedBit
  rw [streamPos_eq]
  by_cases h1 : 8 - s.bitOffset ≤ j
  · rw [if_pos (by omega), streamBit_here hm j hj, hv' _ (by omega)]
    simp [h1, BitVec.getLsbD]
  · rw [if_neg (by omega)]
    by_cases h2 : 8 - s.bitOffset - L ≤ j
    · rw [if_pos (by omega)]
      simp only [h1, decide_false, Bool.and_false, Bool.false_or, ge_iff_le, h2, decide_true, Bool.true_and]
      congr 1
      omega
    · rw [if_neg (by omega)]
      simp [h1, h2]

/-- What `put_chunk` can do (R125). -/
theorem putChunk_packs {s : State} {L v : Nat} (hs : s.Inv) (hL : 1 ≤ L) (hL8 : L ≤ 8) (hv : v < 2 ^ L) :
    PacksTo s L v (putChunk v L s) := by
  have ho := bitOffset_lt s
  have e : s.moveTo (skip s.byteIndex) s.bitOffset = s := by rw [skip_of_mod_ne hs.notReserved, moveTo_self]
  by_cases h0 : s.bitOffset = 0
  · rw [putChunk_empty hs h0]
    exact putEmpty_packs hs h0 hL hL8
  · unfold putChunk
    simp only [e]
    have hi := hs.partlyFilled h0
    have hroom := hs.full.mpr hi
    have hP := streamPos_eq s
    rw [if_neg h0]
    unfold memRead
    simp only [if_pos hi]
    unfold streamRoom at hroom
    by_cases hfit : L ≤ 8 - s.bitOffset
    · rw [if_pos hfit]
      unfold putFits
      rw [memWrite_lt hi]
      refine .inl ⟨?_, _, packed_setByte hs hL (by omega) hi fun j hj => merged_bits hs (by omega) hv j hj ho, rfl⟩
      unfold streamRoom
      omega
    · rw [if_neg hfit]
      obtain ⟨r, hr⟩ : ∃ r, r = L - (8 - s.bitOffset) := ⟨_, rfl⟩
      have hlow : v &&& (2 ^ r - 1) < 2 ^ r := by
        rw [Nat.and_two_pow_sub_one_eq_mod]; exact Nat.mod_lt _ (by positivity)
      have hfree : v >>> r < 2 ^ (8 - s.bitOffset) := by
        rw [Nat.shiftRight_eq_div_pow, Nat.div_lt_iff_lt_mul (by positivity), ← pow_add]
        exact hv.trans_le (Nat.pow_le_pow_right (by omega) (by omega))
      have hwhole : 2 ^ r * (v >>> r) + (v &&& (2 ^ r - 1)) = v := by
        rw [Nat.shiftRight_eq_div_pow, Nat.and_two_pow_sub_one_eq_mod]
        exact Nat.div_add_mod v (2 ^ r)
      have first := packed_setByte (s := s) (L := 8 - s.bitOffset) (v := v >>> r) hs (by omega) (by omega) hi
        fun j hj => merged_bits hs (by omega) hfree j hj ho
      rw [show 8 - s.bitOffset - (8 - s.bitOffset) = 0 by omega, Nat.shiftLeft_zero] at first
      unfold fillTo at first
      rw [if_pos (by omega)] at first
      have key := PacksTo.append (M := r) (w := v &&& (2 ^ r - 1))
        (g := fun t => (memWrite t.byteIndex (((v &&& (2 ^ r - 1)) <<< (8 - r)) &&& 0xFF) t).andThen
          fun u => .go (u.moveTo u.byteIndex r))
        (.inl ⟨by unfold streamRoom; omega, _, first, rfl⟩) hs hlow ?_
      · rw [hwhole, show 8 - s.bitOffset + r = L by omega] at key
        unfold putSpans
        simp only [← hr]
        rw [memWrite_lt hi]
        exact key
      · intro t ht hti
        have ht0 : t.bitOffset = 0 := by rw [ht.bitOffset, hP]; omega
        have := putEmpty_packs (v := v &&& (2 ^ r - 1)) hti ht0 (show 1 ≤ r by omega) (by omega)
        unfold putEmpty fillTo at this
        simpa only [show ¬r = 8 by omega, if_false] using this

/-- What the loop over the chunks `k - 1` to 0 can do (R126, R127): it appends the low `len` bits, at most `8 * k`. -/
theorem putLanes_packs (x len : Nat) (hx : x < 2 ^ len) (k : Nat) {s : State} (hs : s.Inv) :
    PacksTo s (min len (8 * k)) (x % 2 ^ (8 * k)) (putLanes x len k s) := by
  induction k generalizing s with
  | zero =>
    simp only [Nat.mul_zero, Nat.min_zero, pow_zero, Nat.mod_one]
    exact .inl ⟨by have := hs.streamPos_le; omega, s, Packed.nothing hs 0, rfl⟩
  | succ k ih =>
    unfold putLanes
    by_cases hl : 1 ≤ laneLen len k
    · rw [if_pos hl]
      unfold laneLen at hl
      have hL : min len (8 * (k + 1)) = laneLen len k + min len (8 * k) := by unfold laneLen; omega
      have hmin : min len (8 * k) = 8 * k := by omega
      have hv : laneVal x len k < 2 ^ laneLen len k := by
        unfold laneVal
        rw [Nat.and_two_pow_sub_one_eq_mod]; exact Nat.mod_lt _ (by positivity)
      have hval : x % 2 ^ (8 * (k + 1)) = 2 ^ (8 * k) * laneVal x len k + x % 2 ^ (8 * k) := by
        have h1 : laneVal x len k = x / 2 ^ (8 * k) % 2 ^ 8 := by
          unfold laneVal
          rw [Nat.and_two_pow_sub_one_eq_mod, Nat.shiftRight_eq_div_pow]
          by_cases h8 : 8 ≤ len - 8 * k
          · rw [show laneLen len k = 8 by unfold laneLen; omega]
          · have h2 : laneLen len k = len - 8 * k := by unfold laneLen; omega
            have h3 : x / 2 ^ (8 * k) < 2 ^ (len - 8 * k) := by
              rw [Nat.div_lt_iff_lt_mul (by positivity), ← pow_add, show len - 8 * k + 8 * k = len by omega]
              exact hx
            rw [h2, Nat.mod_eq_of_lt h3, Nat.mod_eq_of_lt (h3.trans_le (Nat.pow_le_pow_right (by omega) (by omega)))]
        rw [h1, show 8 * (k + 1) = 8 * k + 8 by omega, pow_add, Nat.mod_mul]
        omega
      rw [hL, hval, hmin]
      refine (putChunk_packs hs (by unfold laneLen; omega) (by unfold laneLen; omega) hv).append hs
        (Nat.mod_lt _ (by positivity)) fun t _ ht => ?_
      have := ih ht
      rwa [hmin] at this
    · rw [if_neg hl]
      unfold laneLen at hl
      have h1 : min len (8 * (k + 1)) = min len (8 * k) := by omega
      have h2 : x % 2 ^ (8 * (k + 1)) = x % 2 ^ (8 * k) := by
        rw [Nat.mod_eq_of_lt (hx.trans_le (Nat.pow_le_pow_right (by omega) (by omega))),
          Nat.mod_eq_of_lt (hx.trans_le (Nat.pow_le_pow_right (by omega) (by omega)))]
      rw [h1, h2]
      exact ih hs

/-- What the bit-serial form can do (R128): it appends the same bits. -/
theorem putBits_packs (v : Word) (n : Nat) {s : State} (hs : s.Inv) :
    PacksTo s n (v.toNat % 2 ^ n) (putBits v n s) := by
  induction n generalizing s with
  | zero =>
    simp only [pow_zero, Nat.mod_one]
    exact .inl ⟨by have := hs.streamPos_le; omega, s, Packed.nothing hs 0, rfl⟩
  | succ n ih =>
    have hval : v.toNat % 2 ^ (n + 1) = 2 ^ n * (v.getLsbD n).toNat + v.toNat % 2 ^ n := by
      have hbit : (v.getLsbD n).toNat = v.toNat / 2 ^ n % 2 := by rw [BitVec.getLsbD, Nat.toNat_testBit]
      rw [hbit, pow_succ, Nat.mod_mul, Nat.add_comm]
    have hbit : (v.getLsbD n).toNat < 2 ^ 1 := by cases v.getLsbD n <;> decide
    have := (putChunk_packs hs (Nat.le_refl 1) (by decide) hbit).append hs
      (Nat.mod_lt v.toNat (show 2 ^ n > 0 by positivity)) fun t _ ht => ih ht
    rw [hval]
    rw [Nat.add_comm 1 n] at this
    exact this

end Sys2Proof.Machine
end

