-- ==== Sys2Proof/Laws/Checksum.lean ====
section
/-! SUPPORT. What `CSUM`'s pass over the blocks does: it writes reserved bytes from data bytes. -/

namespace Sys2Proof.Machine

/-- The pass over the blocks 0 to `n - 1`. -/
def checksumPass (n : Nat) (s : State) : State := (List.range n).foldl checksumBlock s

theorem checksumPass_succ (n : Nat) (s : State) : checksumPass (n + 1) s = checksumBlock (checksumPass n s) n := by
  simp [checksumPass, List.range_succ]

theorem checksumPass_rest (n : Nat) (s : State) : checksumPass n s = { s with buf := (checksumPass n s).buf } := by
  induction n with
  | zero => rfl
  | succ n ih =>
    rw [checksumPass_succ]
    unfold checksumBlock State.setByte
    rw [ih]

/-- The checksum of a block depends on its data bytes alone. -/
theorem blockChecksum_congr {s t : State} {b : Nat} (h : ∀ a, a % 32 ≠ 0 → t.byte a = s.byte a) :
    blockChecksum t b = blockChecksum s b := by
  have e : blockSum t b = blockSum s b := by
    unfold blockSum
    refine congrArg List.sum (List.map_congr_left fun j hj => ?_)
    have := List.mem_range.mp hj
    rw [h _ (by unfold Config.block; omega)]
  unfold blockChecksum
  rw [e]

/-- What the buffer lists after the pass: the checksums of the old data bytes at the reserved bytes of the blocks, and
everything else as before. -/
theorem checksumPass_get? (n : Nat) (s : State) (a : Nat) :
    Memory.get? (checksumPass n s).buf a =
      if a % 32 = 0 ∧ a / 32 < n then some (blockChecksum s (a / 32)) else Memory.get? s.buf a := by
  induction n generalizing a with
  | zero => simp [checksumPass]
  | succ n ih =>
    have hbyte : ∀ a, a % 32 ≠ 0 → (checksumPass n s).byte a = s.byte a := by
      intro a ha
      have hr : (checksumPass n s).resets = s.resets := by rw [checksumPass_rest]
      unfold State.byte
      rw [ih a, if_neg (by omega), hr]
    rw [checksumPass_succ]
    unfold checksumBlock
    rw [setByte_buf, Memory.get?_put, ih a, blockChecksum_congr hbyte]
    unfold Config.block
    by_cases h : a = 32 * n
    · rw [if_pos h, if_pos (by omega), show a / 32 = n by omega]
    · rw [if_neg h]
      by_cases h2 : a % 32 = 0 ∧ a / 32 < n
      · rw [if_pos h2, if_pos (by omega)]
      · rw [if_neg h2, if_neg (by omega)]

theorem checksumPass_wf (n : Nat) {s : State} (h : Memory.wf s.buf) : Memory.wf (checksumPass n s).buf := by
  induction n with
  | zero => exact h
  | succ n ih =>
    rw [checksumPass_succ]
    exact Memory.put_wf _ _ ih

/-- The bytes after the pass. -/
theorem checksumPass_byte (n : Nat) (s : State) (a : Nat) :
    (checksumPass n s).byte a = if a % 32 = 0 ∧ a / 32 < n then blockChecksum s (a / 32) else s.byte a := by
  have hr : (checksumPass n s).resets = s.resets := by rw [checksumPass_rest]
  unfold State.byte
  rw [checksumPass_get?, hr]
  split_ifs <;> rfl

/-- A second pass finds what the first left (R153). -/
theorem checksumPass_twice (n : Nat) {s : State} (h : Memory.wf s.buf) :
    checksumPass n (checksumPass n s) = checksumPass n s := by
  have hd : ∀ a, a % 32 ≠ 0 → (checksumPass n s).byte a = s.byte a := by
    intro a ha
    rw [checksumPass_byte, if_neg (by omega)]
  have hb : (checksumPass n (checksumPass n s)).buf = (checksumPass n s).buf := by
    refine Memory.ext (checksumPass_wf n (checksumPass_wf n h)) (checksumPass_wf n h) fun a => ?_
    rw [checksumPass_get?, checksumPass_get?, blockChecksum_congr hd]
    split_ifs <;> rfl
  rw [checksumPass_rest n (checksumPass n s), hb]

theorem execCsum_running {s : State} (h : s.err = .none) :
    exec .csum s = .next (checksumPass (highBlock s + 1) s) := if_pos h

end Sys2Proof.Machine
end

