-- ==== Sys2Proof/Laws/Decode.lean ====
section
/-! SUPPORT. What the decoder of each format accepts, and that it reads back what the encoder of that format writes. -/

namespace Sys2Proof

theorem takeText_encodeText {t : Text} (rest : List Byte) (h : t.length ≤ 255) :
    takeText (encodeText t ++ rest) = .ok (t, rest) := by
  simp [takeText, encodeText, Nat.mod_eq_of_lt (show t.length < 256 by omega)]

theorem takeText_ok {bs rest : List Byte} {t : Text} (h : takeText bs = .ok (t, rest)) :
    t.length ≤ 255 ∧ bs = encodeText t ++ rest := by
  cases bs with
  | nil => simp [takeText] at h
  | cons n bs =>
    simp only [takeText] at h
    split_ifs at h with hn
    obtain ⟨rfl, rfl⟩ : bs.take n.toNat = t ∧ bs.drop n.toNat = rest := by simpa using h
    have := n.isLt
    have hl : (bs.take n.toNat).length = n.toNat := by simp [hn]
    refine ⟨by omega, ?_⟩
    simp [encodeText, hl]

theorem takeText_truncated {t : Text} {n : Nat} (h : t.length ≤ 255) (hn : n < (encodeText t).length) :
    takeText ((encodeText t).take n) = .error .truncated := by
  cases n with
  | zero => rfl
  | succ n =>
    simp only [encodeText, List.length_cons] at hn
    simp only [encodeText, List.take_succ_cons, takeText, BitVec.toNat_ofNat]
    rw [Nat.mod_eq_of_lt (show t.length < 2 ^ 8 by omega), if_neg (by simp; omega)]

theorem takeTexts_encode {raw rng : Text} (rest : List Byte) (h1 : raw.length ≤ 255) (h2 : rng.length ≤ 255) :
    takeTexts (encodeText raw ++ encodeText rng ++ rest) = .ok (raw, rng, rest) := by
  simp [takeTexts, List.append_assoc, takeText_encodeText _ h1, takeText_encodeText _ h2]

theorem takeTexts_ok {bs rest : List Byte} {raw rng : Text} (h : takeTexts bs = .ok (raw, rng, rest)) :
    raw.length ≤ 255 ∧ rng.length ≤ 255 ∧ bs = encodeText raw ++ encodeText rng ++ rest := by
  unfold takeTexts at h
  cases h1 : takeText bs with
  | error e => simp [h1] at h
  | ok p =>
    obtain ⟨t, bs1⟩ := p
    simp only [h1] at h
    cases h2 : takeText bs1 with
    | error e => simp [h2] at h
    | ok p =>
      obtain ⟨u, bs2⟩ := p
      simp only [h2, Except.ok.injEq, Prod.mk.injEq] at h
      obtain ⟨rfl, rfl, rfl⟩ := h
      obtain ⟨h3, rfl⟩ := takeText_ok h1
      obtain ⟨h4, rfl⟩ := takeText_ok h2
      exact ⟨h3, h4, by simp⟩

theorem takeTexts_truncated {raw rng : Text} {n : Nat} (h1 : raw.length ≤ 255) (h2 : rng.length ≤ 255)
    (hn : n < (encodeText raw ++ encodeText rng).length) :
    takeTexts ((encodeText raw ++ encodeText rng).take n) = .error .truncated := by
  rw [List.take_append, takeTexts]
  by_cases h : n < (encodeText raw).length
  · rw [show n - (encodeText raw).length = 0 by omega, List.take_zero, List.append_nil,
      takeText_truncated h1 h]
  · rw [List.take_of_length_le (by omega), takeText_encodeText _ h1]
    simp only
    rw [List.length_append] at hn
    rw [takeText_truncated h2 (by omega)]

theorem decodeN_ok {i j : Instr} {arg : Byte} {bs rest : List Byte} (h : decodeN i arg bs = .ok (j, rest)) :
    j = i ∧ arg = 0 ∧ bs = rest := by
  unfold decodeN at h
  split_ifs at h with ha
  simp_all

theorem lenBits (arg : Byte) (h : arg.extractLsb' 6 2 = 0) : (0 : BitVec 2) ++ arg.extractLsb' 0 6 = arg := by
  apply BitVec.eq_of_toNat_eq
  have h1 := congrArg BitVec.toNat h
  have := arg.isLt
  simp only [BitVec.extractLsb'_toNat, Nat.shiftRight_eq_div_pow, BitVec.toNat_append] at h1 ⊢
  simp at h1 ⊢
  omega

theorem decodeL_ok {j : Instr} {arg : Byte} {bs rest : List Byte} (h : decodeL arg bs = .ok (j, rest)) :
    ∃ len, j = .append len ∧ lenLegal len = true ∧ arg = (0 : BitVec 2) ++ len ∧ bs = rest := by
  unfold decodeL at h
  split_ifs at h with h1 h2
  simp only [Except.ok.injEq, Prod.mk.injEq] at h
  obtain ⟨rfl, rfl⟩ := h
  exact ⟨_, rfl, h2, (lenBits arg (by simpa using h1)).symm, rfl⟩

theorem decodeL_encode {len : BitVec 6} (rest : List Byte) (h : lenLegal len = true) :
    decodeL ((0 : BitVec 2) ++ len) rest = .ok (.append len, rest) := by
  have h1 : ((0 : BitVec 2) ++ len).extractLsb' 6 2 = 0 := by
    apply BitVec.eq_of_toNat_eq
    have := len.isLt
    simp only [BitVec.extractLsb'_toNat, Nat.shiftRight_eq_div_pow, BitVec.toNat_append]
    simp
    omega
  have h2 : ((0 : BitVec 2) ++ len).extractLsb' 0 6 = len := by
    apply BitVec.eq_of_toNat_eq
    have := len.isLt
    simp only [BitVec.extractLsb'_toNat, Nat.shiftRight_eq_div_pow, BitVec.toNat_append]
    simp
    omega
  unfold decodeL
  rw [h1, h2]
  simp only [ne_eq, not_true_eq_false, if_false, h, if_true]

/-- The four bytes of an immediate, most significant first, are its bytes. -/
theorem immBytes (p0 p1 p2 p3 : Byte) :
    (p0 ++ p1 ++ p2 ++ p3).extractLsb' 24 8 = p0 ∧ (p0 ++ p1 ++ p2 ++ p3).extractLsb' 16 8 = p1 ∧
      (p0 ++ p1 ++ p2 ++ p3).extractLsb' 8 8 = p2 ∧ (p0 ++ p1 ++ p2 ++ p3).extractLsb' 0 8 = p3 := by
  refine ⟨?_, ?_, ?_, ?_⟩ <;>
  · apply BitVec.eq_of_getLsbD_eq
    intro j hj
    simp only [BitVec.getLsbD_extractLsb', BitVec.getLsbD_append]
    interval_cases j <;> simp

theorem immWord (imm : Word) :
    imm.extractLsb' 24 8 ++ imm.extractLsb' 16 8 ++ imm.extractLsb' 8 8 ++ imm.extractLsb' 0 8 = imm := by
  apply BitVec.eq_of_getLsbD_eq
  intro j hj
  simp only [BitVec.getLsbD_extractLsb', BitVec.getLsbD_append]
  interval_cases j <;> simp

theorem decodeI_ok {j : Instr} {arg : Byte} {bs rest : List Byte} (h : decodeI arg bs = .ok (j, rest)) :
    ∃ imm : Word, j = .ldv imm ∧ arg = 0 ∧
      bs = [imm.extractLsb' 24 8, imm.extractLsb' 16 8, imm.extractLsb' 8 8, imm.extractLsb' 0 8] ++ rest := by
  unfold decodeI at h
  split_ifs at h with ha
  split at h
  · rename_i p0 p1 p2 p3 bs
    simp only [Except.ok.injEq, Prod.mk.injEq] at h
    obtain ⟨rfl, rfl⟩ := h
    obtain ⟨e0, e1, e2, e3⟩ := immBytes p0 p1 p2 p3
    exact ⟨_, rfl, by simpa using ha, by rw [e0, e1, e2, e3]; rfl⟩
  · simp at h

theorem decodeS_ok {make : Text → Text → Instr} {j : Instr} {arg : Byte} {bs rest : List Byte}
    (h : decodeS make arg bs = .ok (j, rest)) :
    ∃ raw rng, j = make raw rng ∧ arg = 0 ∧ raw.length ≤ 255 ∧ rng.length ≤ 255 ∧
      bs = encodeText raw ++ encodeText rng ++ rest := by
  unfold decodeS at h
  split_ifs at h with ha
  cases h1 : takeTexts bs with
  | error e => simp [h1] at h
  | ok p =>
    obtain ⟨raw, rng, bs1⟩ := p
    simp only [h1, Except.ok.injEq, Prod.mk.injEq] at h
    obtain ⟨rfl, rfl⟩ := h
    obtain ⟨h2, h3, rfl⟩ := takeTexts_ok h1
    exact ⟨raw, rng, rfl, by simpa using ha, h2, h3, rfl⟩

theorem decodeS_encode (make : Text → Text → Instr) {raw rng : Text} (rest : List Byte) (h1 : raw.length ≤ 255)
    (h2 : rng.length ≤ 255) :
    decodeS make 0 (encodeText raw ++ encodeText rng ++ rest) = .ok (make raw rng, rest) := by
  simp only [decodeS, takeTexts_encode rest h1 h2, ne_eq, not_true_eq_false, if_false]

theorem decodeS_truncated (make : Text → Text → Instr) {raw rng : Text} {n : Nat} (h1 : raw.length ≤ 255)
    (h2 : rng.length ≤ 255) (hn : n < (encodeText raw ++ encodeText rng).length) :
    decodeS make 0 ((encodeText raw ++ encodeText rng).take n) = .error .truncated := by
  simp only [decodeS, takeTexts_truncated h1 h2 hn, ne_eq, not_true_eq_false, if_false]

end Sys2Proof
end

