-- ==== Sys2Proof/Laws/EpsLn.lean ====
section
/-! SUPPORT. A rational `EPS_LN` stands for every real one (R6, R95; log entry 5). -/

namespace Sys2Proof.Machine

/-- Between a real half-width and the next half that lies farther from `x` there is a gap. -/
theorem eps_gap (x ε : ℝ) : ∃ δ : ℝ, 0 < δ ∧ ∀ m : ℤ, |x - (m + 1 / 2)| ≤ ε ∨ ε + δ ≤ |x - (m + 1 / 2)| := by
  have hu := Int.lt_floor_add_one (x - 1 / 2 + ε)
  have hl := Int.ceil_lt_add_one (x - 1 / 2 - ε)
  refine ⟨min (⌊x - 1 / 2 + ε⌋ + 1 - (x - 1 / 2 + ε)) (x - 1 / 2 - ε - (⌈x - 1 / 2 - ε⌉ - 1)),
    lt_min (by linarith) (by linarith), fun m => ?_⟩
  rw [or_iff_not_imp_left, not_le, lt_abs]
  rintro (h | h)
  · have : m ≤ ⌈x - 1 / 2 - ε⌉ - 1 := by
      rw [Int.le_sub_one_iff, Int.lt_ceil]; linarith
    have : (m : ℝ) ≤ ⌈x - 1 / 2 - ε⌉ - 1 := by exact_mod_cast this
    linarith [min_le_right (⌊x - 1 / 2 + ε⌋ + 1 - (x - 1 / 2 + ε)) (x - 1 / 2 - ε - (⌈x - 1 / 2 - ε⌉ - 1)),
      le_abs_self (x - ((m : ℝ) + 1 / 2))]
  · have : ⌊x - 1 / 2 + ε⌋ + 1 ≤ m := by
      rw [Int.add_one_le_iff, Int.floor_lt]; linarith
    have : (⌊x - 1 / 2 + ε⌋ : ℝ) + 1 ≤ m := by exact_mod_cast this
    linarith [min_le_left (⌊x - 1 / 2 + ε⌋ + 1 - (x - 1 / 2 + ε)) (x - 1 / 2 - ε - (⌈x - 1 / 2 - ε⌉ - 1)),
      neg_abs_le (x - ((m : ℝ) + 1 / 2))]

/-- The ratios and bases that packets can give are finitely many (R54: no text is longer than 255 characters). -/
theorem packet_operands_finite :
    {p : ℚ × ℚ | ∃ raw rng : Text, Text.fits raw ∧ Text.fits rng ∧ conrelresOperands raw rng = some p}.Finite := by
  have : Finite Byte := Finite.of_injective (fun c : Byte => c.toFin) fun _ _ h => BitVec.eq_of_toFin_eq h
  have hf := List.finite_length_le Byte 255
  refine ((hf.prod hf).image fun q => (conrelresOperands q.1 q.2).getD (0, 0)).subset ?_
  rintro p ⟨raw, rng, h1, h2, h⟩
  exact ⟨(raw, rng), ⟨of_decide_eq_true h1, of_decide_eq_true h2⟩, by simp [h]⟩

/-- R6, R95: for every real `EPS_LN` there is a rational one, not below it, with which R95 says the same of every packet:
the halves it lets `CVT.CONRELRES` take for hit are the same. -/
theorem rational_eps_acts_like_real (ε : ℝ) (hε : 0 ≤ ε) :
    ∃ q : ℚ, 0 ≤ q ∧ ε ≤ (q : ℝ) ∧ ∀ (raw rng : Text) (r b : ℚ), Text.fits raw → Text.fits rng →
      conrelresOperands raw rng = some (r, b) → ∀ m : ℤ,
        (|Real.log (r : ℝ) / Real.log (b : ℝ) - (m + 1 / 2)| ≤ (q : ℝ) ↔
          |Real.log (r : ℝ) / Real.log (b : ℝ) - (m + 1 / 2)| ≤ ε) := by
  have hgap : ∀ S : Set (ℚ × ℚ), S.Finite → ∃ δ : ℝ, 0 < δ ∧ ∀ p ∈ S, ∀ m : ℤ,
      |Real.log (p.1 : ℝ) / Real.log (p.2 : ℝ) - (m + 1 / 2)| ≤ ε ∨
        ε + δ ≤ |Real.log (p.1 : ℝ) / Real.log (p.2 : ℝ) - (m + 1 / 2)| := by
    intro S hS
    induction S, hS using Set.Finite.induction_on with
    | empty => exact ⟨1, one_pos, fun _ h => h.elim⟩
    | @insert p S _ _ ih =>
      obtain ⟨δ, hδ, h⟩ := ih
      obtain ⟨δ', hδ', h'⟩ := eps_gap (Real.log (p.1 : ℝ) / Real.log (p.2 : ℝ)) ε
      refine ⟨min δ δ', lt_min hδ hδ', ?_⟩
      rintro p' (rfl | hp) m
      · exact (h' m).imp_right fun k => by linarith [min_le_right δ δ']
      · exact (h p' hp m).imp_right fun k => by linarith [min_le_left δ δ']
  obtain ⟨δ, hδ, h⟩ := hgap _ packet_operands_finite
  obtain ⟨q, hq, hq'⟩ := exists_rat_btwn (show ε < ε + δ by linarith)
  refine ⟨q, by exact_mod_cast hε.trans hq.le, hq.le, fun raw rng r b h1 h2 ho m => ⟨fun hm => ?_, fun hm => hm.trans hq.le⟩⟩
  exact (h (r, b) ⟨raw, rng, h1, h2, ho⟩ m).resolve_right fun k => by simp only at k; linarith

end Sys2Proof.Machine
end

