-- ==== Sys2Proof/Laws/Ops.lean ====
section
/-! SUPPORT. Said once for each shared operation: everything it can do. -/

namespace Sys2Proof.Machine

/-! ## Which meaning a command has -/

section
variable (s : State) (raw rng : Text)

theorem exec_fill : exec .fill s = execFill s := rfl
theorem exec_crst : exec .crst s = execCrst s := rfl
theorem exec_ldv (imm : Word) : exec (.ldv imm) s = execLdv imm s := rfl
theorem exec_cvtUnint : exec (.cvtUnint raw rng) s = execCvtUnint raw rng s := rfl
theorem exec_cvtChr5 : exec (.cvtChr5 raw rng) s = execCvtChr5 raw rng s := rfl
theorem exec_cvtDate : exec (.cvtDate raw rng) s = execCvtDate raw rng s := rfl
theorem exec_cvtConres : exec (.cvtConres raw rng) s = execCvtConres raw rng s := rfl
theorem exec_cvtConrelres : exec (.cvtConrelres raw rng) s = execCvtConrelres raw rng s := rfl
theorem exec_cvtSingle : exec (.cvtSingle raw rng) s = execCvtSingle raw rng s := rfl
theorem exec_cvtUnrec (tag7 : Bool) : exec (.cvtUnrec tag7 raw rng) s = execCvtUnrec tag7 raw rng s := rfl
theorem exec_append (len : BitVec 6) : exec (.append len) s = execAppend len s := rfl
theorem exec_term : exec .term s = execTerm s := rfl
theorem exec_csum : exec .csum s = execCsum s := rfl

end

/-! ## Errors and the end of a command -/

theorem unlessFaulted_running {s : State} (h : s.err = .none) (body : State → Host.Outcome State Fault Refusal) :
    unlessFaulted s body = body s := if_pos h

theorem unlessFaulted_faulted {s : State} (h : s.err ≠ .none) (body : State → Host.Outcome State Fault Refusal) :
    unlessFaulted s body = .next s := if_neg h

/-- The two ways a command that waits for `ERR = 0` can go (R188). -/
theorem unlessFaulted_cases (s : State) (body : State → Host.Outcome State Fault Refusal) :
    (s.err = .none ∧ unlessFaulted s body = body s) ∨ (s.err ≠ .none ∧ unlessFaulted s body = .next s) := by
  by_cases h : s.err = .none
  · exact .inl ⟨h, if_pos h⟩
  · exact .inr ⟨h, if_neg h⟩

/-- The end of a conversion (R84): `VAL` written, or the command refused. -/
theorem writeInt_in {n : Int} (h : -2 ^ 31 ≤ n ∧ n ≤ 2 ^ 32 - 1) (s : State) :
    writeInt n s = .next { s with val := some (BitVec.ofInt 32 n) } := by
  simp only [writeInt, toU32, if_pos h]

theorem writeInt_out {n : Int} (h : ¬(-2 ^ 31 ≤ n ∧ n ≤ 2 ^ 32 - 1)) (s : State) :
    writeInt n s = .refused .resultOutOfRange := by
  simp only [writeInt, toU32, if_neg h]

theorem writeInt_cases (n : Int) (s : State) :
    (∃ v, writeInt n s = .next { s with val := some v }) ∨ writeInt n s = .refused .resultOutOfRange := by
  by_cases h : -2 ^ 31 ≤ n ∧ n ≤ 2 ^ 32 - 1
  · exact .inl ⟨_, writeInt_in h s⟩
  · exact .inr (writeInt_out h s)

/-- Choosing the logarithm's integer moves nothing but the counter of draws. -/
theorem chooseLog_state (r b : Rat) (s : State) : (chooseLog r b s).2 = { s with draws := (chooseLog r b s).2.draws } := by
  simp only [chooseLog]
  split_ifs <;> rfl

/-! ## The seven conversions -/

/-- What a conversion can do while no error is recorded: write `VAL` (and, `CVT.CONRELRES`, move the counter of draws),
raise one error, or be refused. -/
theorem convert_cases {i : Instr} (hi : isConvert i = true) {s : State} (h : s.err = .none) :
    (∃ v d, exec i s = .next { s with val := some v, draws := d } ∧
      ((∀ raw rng, i ≠ .cvtConrelres raw rng) → d = s.draws)) ∨
    (∃ e, e ≠ Err.none ∧ exec i s = .next { s with err := e }) ∨
    (exec i s = .refused .resultOutOfRange ∧
      ∃ raw rng, i = .cvtUnint raw rng ∨ i = .cvtConres raw rng ∨ i = .cvtConrelres raw rng) := by
  cases i with
  | fill => simp [isConvert] at hi
  | crst => simp [isConvert] at hi
  | ldv imm => simp [isConvert] at hi
  | append len => simp [isConvert] at hi
  | term => simp [isConvert] at hi
  | csum => simp [isConvert] at hi
  | cvtUnint raw rng =>
    simp only [exec, execCvtUnint, unlessFaulted_running h]
    cases decimal? raw with
    | none => exact .inr (.inl ⟨.parseError, by decide, rfl⟩)
    | some x =>
      rcases writeInt_cases (truncRat x.val) s with ⟨v, hv⟩ | hv
      · exact .inl ⟨v, s.draws, hv, fun _ => rfl⟩
      · exact .inr (.inr ⟨hv, raw, rng, .inl rfl⟩)
  | cvtChr5 raw rng =>
    simp only [exec, execCvtChr5, unlessFaulted_running h]
    exact .inl ⟨_, s.draws, rfl, fun _ => rfl⟩
  | cvtDate raw rng =>
    simp only [exec, execCvtDate, unlessFaulted_running h]
    cases date? raw with
    | none => exact .inr (.inl ⟨.parseError, by decide, rfl⟩)
    | some t => exact .inl ⟨_, s.draws, rfl, fun _ => rfl⟩
  | cvtConres raw rng =>
    simp only [exec, execCvtConres, unlessFaulted_running h]
    cases conresQuotient raw rng with
    | none => exact .inr (.inl ⟨.parseError, by decide, rfl⟩)
    | some q =>
      rcases writeInt_cases (roundRat s.params.roundTie q) s with ⟨v, hv⟩ | hv
      · exact .inl ⟨v, s.draws, hv, fun _ => rfl⟩
      · exact .inr (.inr ⟨hv, raw, rng, .inr (.inl rfl)⟩)
  | cvtConrelres raw rng =>
    simp only [exec, execCvtConrelres, unlessFaulted_running h]
    cases conrelresOperands raw rng with
    | none => exact .inr (.inl ⟨.parseError, by decide, rfl⟩)
    | some p =>
      rcases writeInt_cases (chooseLog p.1 p.2 s).1 (chooseLog p.1 p.2 s).2 with ⟨v, hv⟩ | hv
      · refine .inl ⟨v, (chooseLog p.1 p.2 s).2.draws, ?_, fun hne => absurd rfl (hne raw rng)⟩
        simp only [hv]
        rw [chooseLog_state]
      · exact .inr (.inr ⟨hv, raw, rng, .inr (.inr rfl)⟩)
  | cvtSingle raw rng =>
    simp only [exec, execCvtSingle, unlessFaulted_running h]
    cases decimal? raw with
    | none => exact .inr (.inl ⟨.parseError, by decide, rfl⟩)
    | some x => exact .inl ⟨_, s.draws, rfl, fun _ => rfl⟩
  | cvtUnrec tag7 raw rng =>
    simp only [exec, execCvtUnrec, unlessFaulted_running h]
    exact .inr (.inl ⟨.unrecognizedType, by decide, rfl⟩)

/-! ## The packer's commands -/

/-- What `APPEND` of a value can do (R127): the field is appended and counted, or there is no room for all of it. -/
theorem appendValue_cases {s : State} {len : BitVec 6} (v : Word) (hs : s.Inv) (hl : len.toNat ≤ 32) :
    (streamPos s + len.toNat ≤ streamRoom s ∧ ∃ t, Packed s len.toNat (v.toNat % 2 ^ len.toNat) t ∧
      appendValue len v s = .next (countField t)) ∨
    (streamRoom s < streamPos s + len.toNat ∧ ∃ t, Packed s (streamRoom s - streamPos s)
        ((v.toNat % 2 ^ len.toNat) >>> (streamPos s + len.toNat - streamRoom s)) t ∧
      appendValue len v s = .next { t with err := .bufferOverflow }) := by
  have hx : v.toNat % 2 ^ len.toNat < 2 ^ len.toNat := Nat.mod_lt _ (by positivity)
  have key := putLanes_packs (v.toNat % 2 ^ len.toNat) len.toNat hx 4 hs
  have h1 : min len.toNat (8 * 4) = len.toNat := by omega
  have h2 : v.toNat % 2 ^ len.toNat % 2 ^ (8 * 4) = v.toNat % 2 ^ len.toNat :=
    Nat.mod_eq_of_lt (hx.trans_le (Nat.pow_le_pow_right (by omega) (by omega)))
  rw [h1, h2] at key
  unfold appendValue
  rw [Nat.and_two_pow_sub_one_eq_mod]
  rcases key with ⟨hr, t, ht, he⟩ | ⟨hr, t, ht, he⟩
  · exact .inl ⟨hr, t, ht, by rw [he]; rfl⟩
  · exact .inr ⟨hr, t, ht, by rw [he]; rfl⟩

/-- `APPEND` of a legal length where `VAL` holds a value (R127). -/
theorem execAppend_value {s : State} {len : BitVec 6} {v : Word} (h : s.err = .none) (hv : s.val = some v)
    (h1 : 1 ≤ len.toNat) (h2 : len.toNat ≤ 32) : exec (.append len) s = appendValue len v s := by
  show execAppend len s = _
  unfold execAppend
  rw [if_pos (by simp [h1, h2]), unlessFaulted_running h, hv]

/-- The state `TERM` writes from (R129) has the invariant, a byte boundary, and the terminator's index. -/
theorem alignForTerm_spec {s : State} (hs : s.Inv) :
    (alignForTerm s).Inv ∧ (alignForTerm s).bitOffset = 0 ∧
      (alignForTerm s).byteIndex = (if s.bitOffset = 0 then s.byteIndex else skip (s.byteIndex + 1)) ∧
      alignForTerm s = { s with cur := (alignForTerm s).cur } := by
  unfold alignForTerm
  by_cases h0 : s.bitOffset = 0
  · rw [if_pos h0, if_pos h0]
    exact ⟨hs, h0, rfl, rfl⟩
  · rw [if_neg h0, if_neg h0]
    have hi := hs.partlyFilled h0
    have hB := hs.bufSize_le
    have hm : s.byteIndex % 32 ≠ 0 := hs.notReserved
    have e : (advance s).byteIndex = skip (s.byteIndex + 1) := by
      unfold advance
      rw [moveTo_byteIndex, Nat.mod_eq_of_lt]
      unfold skip
      split_ifs <;> omega
    have e0 : (advance s).bitOffset = 0 := by unfold advance; rw [moveTo_bitOffset]
    refine ⟨⟨hs.params, hs.canonical, hs.inside, ?_, ?_, fun h => absurd e0 h⟩, e0, e, rfl⟩
    · rw [e]
      exact skip_mod _
    · rw [e]
      show skip (s.byteIndex + 1) ≤ s.bufSize + 1
      rw [bufSize_eq] at hi ⊢
      unfold skip Config.block
      split_ifs <;> omega

/-- What `TERM` can do (R129). -/
theorem execTerm_cases {s : State} (hs : s.Inv) (h : s.err = .none) :
    ((alignForTerm s).byteIndex < s.bufSize ∧ exec .term s =
      .next (advance ((alignForTerm s).setByte (alignForTerm s).byteIndex 0xFF))) ∨
    (s.bufSize ≤ (alignForTerm s).byteIndex ∧ exec .term s = .next { alignForTerm s with err := .bufferOverflow }) := by
  obtain ⟨hi, h0, -, hr⟩ := alignForTerm_spec hs
  have hb : (alignForTerm s).bufSize = s.bufSize := by rw [hr]; rfl
  have e : exec .term s = (putEmpty Config.termByte 8 (alignForTerm s)).finish fun s => .next s := by
    rw [← putChunk_empty hi h0]
    show execTerm s = _
    unfold execTerm
    rw [unlessFaulted_running h]
  rw [e]
  unfold putEmpty
  by_cases hl : (alignForTerm s).byteIndex < s.bufSize
  · refine .inl ⟨hl, ?_⟩
    rw [memWrite_lt (by rw [hb]; exact hl)]
    rfl
  · refine .inr ⟨by omega, ?_⟩
    rw [memWrite_ge (by rw [hb]; omega)]
    rfl

/-! ## The next command -/

/-- Taking the next command moves nothing but the host's acts. -/
theorem fetchFrom_state (s : State) (acts : List HostAct) :
    (fetchFrom s acts).2 = { s with host := (fetchFrom s acts).2.host } := by
  induction acts with
  | nil => rfl
  | cons a acts ih =>
    cases a with
    | reset => rfl
    | send bytes =>
      cases bytes with
      | nil => exact ih
      | cons b bs =>
        simp only [fetchFrom]
        cases decode (b :: bs) <;> rfl

theorem fetch_state (s : State) : (fetch s).2 = { s with host := (fetch s).2.host } := fetchFrom_state s s.host

/-- Every way a step can go. -/
theorem step_cases (s : State) :
    ((fetch s).1 = .nothing ∧ step s = .next (fetch s).2) ∨
    ((fetch s).1 = .hostReset ∧ step s = .next (hardReset (fetch s).2)) ∨
    (∃ i, (fetch s).1 = .command i ∧ step s = exec i (fetch s).2) ∨
    (∃ why, (fetch s).1 = .reserved why ∧ step s = .refused (.reservedEncoding why)) := by
  unfold step
  cases hf : fetch s with
  | mk f t => cases f <;> simp

theorem fetch_of_decode {s : State} {bytes rest : List Byte} {acts : List HostAct} {i : Instr}
    (h : decode bytes = .ok (i, rest)) :
    fetch { s with host := .send bytes :: acts } = (.command i, { s with host := sendRest rest acts }) := by
  cases bytes with
  | nil => simp [decode] at h
  | cons b bs => simp only [fetch, fetchFrom, h]

/-- The invariant does not depend on what the host does next. -/
theorem State.Inv.withHost {s : State} (h : s.Inv) (acts : List HostAct) : State.Inv { s with host := acts } :=
  ⟨h.params, h.canonical, h.inside, h.notReserved, h.bounded, h.partlyFilled⟩

end Sys2Proof.Machine
end

