-- ==== Sys2Proof/Laws/PerInstr.lean ====
section
/-! SUPPORT. The laws made per constructor of Instr. PacketSize: how many bytes a packet has (R50 to R54). -/

namespace Sys2Proof.Laws

/-- R51 to R54: the bytes of a format S packet: header, two length bytes, the characters. -/
def textBytes (raw rng : Text) : Nat := 4 + raw.length + rng.length

/-- R50 to R54: the size of a packet by its format. -/
def packetSize : Instr → Nat
  | .fill => 2
  | .crst => 2
  | .ldv _ => 6
  | .cvtUnint raw rng => textBytes raw rng
  | .cvtChr5 raw rng => textBytes raw rng
  | .cvtDate raw rng => textBytes raw rng
  | .cvtConres raw rng => textBytes raw rng
  | .cvtConrelres raw rng => textBytes raw rng
  | .cvtSingle raw rng => textBytes raw rng
  | .cvtUnrec _ raw rng => textBytes raw rng
  | .append _ => 2
  | .term => 2
  | .csum => 2

theorem encodeS_length (op : Byte) (raw rng : Text) : (encodeS op raw rng).length = textBytes raw rng := by
  simp only [encodeS, encodeText, textBytes, List.length_cons, List.length_append]
  omega

/-- A packet has the size its format gives it, at least a header. -/
def PacketSize.Statement (i : Instr) : Prop := (encode i).length = packetSize i ∧ 2 ≤ packetSize i

theorem PacketSize.fill : PacketSize.Statement .fill := ⟨rfl, Nat.le_refl 2⟩
theorem PacketSize.crst : PacketSize.Statement .crst := ⟨rfl, Nat.le_refl 2⟩
theorem PacketSize.ldv (imm : Word) : PacketSize.Statement (.ldv imm) := ⟨rfl, by simp [packetSize]⟩
theorem PacketSize.cvtUnint (raw rng : Text) : PacketSize.Statement (.cvtUnint raw rng) :=
  ⟨encodeS_length _ _ _, by simp only [packetSize, textBytes]; omega⟩
theorem PacketSize.cvtChr5 (raw rng : Text) : PacketSize.Statement (.cvtChr5 raw rng) :=
  ⟨encodeS_length _ _ _, by simp only [packetSize, textBytes]; omega⟩
theorem PacketSize.cvtDate (raw rng : Text) : PacketSize.Statement (.cvtDate raw rng) :=
  ⟨encodeS_length _ _ _, by simp only [packetSize, textBytes]; omega⟩
theorem PacketSize.cvtConres (raw rng : Text) : PacketSize.Statement (.cvtConres raw rng) :=
  ⟨encodeS_length _ _ _, by simp only [packetSize, textBytes]; omega⟩
theorem PacketSize.cvtConrelres (raw rng : Text) : PacketSize.Statement (.cvtConrelres raw rng) :=
  ⟨encodeS_length _ _ _, by simp only [packetSize, textBytes]; omega⟩
theorem PacketSize.cvtSingle (raw rng : Text) : PacketSize.Statement (.cvtSingle raw rng) :=
  ⟨encodeS_length _ _ _, by simp only [packetSize, textBytes]; omega⟩
theorem PacketSize.cvtUnrec (tag7 : Bool) (raw rng : Text) : PacketSize.Statement (.cvtUnrec tag7 raw rng) :=
  ⟨encodeS_length _ _ _, by simp only [packetSize, textBytes]; omega⟩
theorem PacketSize.append (len : BitVec 6) : PacketSize.Statement (.append len) := ⟨rfl, Nat.le_refl 2⟩
theorem PacketSize.term : PacketSize.Statement .term := ⟨rfl, Nat.le_refl 2⟩
theorem PacketSize.csum : PacketSize.Statement .csum := ⟨rfl, Nat.le_refl 2⟩

end Sys2Proof.Laws
end

