-- ==== Sys2Proof/Laws/Text.lean ====
section
/-! SUPPORT. What each of the text operations does: the spaces around a text, its tokens, and the numbers it denotes. -/

namespace Sys2Proof.Machine

/-! ## Runs of characters -/

/-- A text that starts with a run of one kind of character is cut where the run ends. -/
theorem cut_run {p : Byte → Bool} {a b : Text} (ha : ∀ c ∈ a, p c = true) (hb : ∀ c ∈ b.head?, p c = false) :
    (a ++ b).takeWhile p = a ∧ (a ++ b).dropWhile p = b := by
  induction a with
  | nil =>
    cases b with
    | nil => simp
    | cons c b => simp [hb c (by simp)]
  | cons c a ih =>
    obtain ⟨h1, h2⟩ := ih fun d hd => ha d (by simp [hd])
    simp [ha c (by simp), h1, h2]

theorem run_before (p : Byte → Bool) (t : Text) :
    t = t.takeWhile p ++ t.dropWhile p ∧ (∀ c ∈ t.takeWhile p, p c = true) ∧ ∀ c ∈ (t.dropWhile p).head?, p c = false := by
  refine ⟨List.takeWhile_append_dropWhile.symm, fun c hc => List.mem_takeWhile_imp hc, fun c hc => ?_⟩
  have := List.head?_dropWhile_not p t
  cases h : (t.dropWhile p).head? with
  | none => simp [h] at hc
  | some d =>
    rw [h] at this hc
    simp_all

theorem mem_spaces {n : Nat} {c : Byte} (h : c ∈ spaces n) : isSpace c = true := by
  obtain ⟨-, rfl⟩ := List.mem_replicate.mp h
  rfl

theorem spaces_of_all {t : Text} (h : ∀ c ∈ t, isSpace c = true) : t = spaces t.length :=
  List.eq_replicate_of_mem fun c hc => by simpa [isSpace] using h c hc

theorem reverse_spaces (n : Nat) : (spaces n).reverse = spaces n := List.reverse_replicate

/-! ## The spaces around a text -/

/-- No space at either end. -/
def Trimmed (t : Text) : Prop := (∀ c ∈ t.head?, isSpace c = false) ∧ ∀ c ∈ t.getLast?, isSpace c = false

theorem trim_spaces {u : Text} (h : Trimmed u) (a b : Nat) : trim (spaces a ++ u ++ spaces b) = u := by
  obtain ⟨h1, h2⟩ := h
  unfold trim
  have e1 : (spaces a ++ u ++ spaces b).dropWhile isSpace = u ++ spaces b ∨
      u = [] := by
    by_cases hu : u = []
    · exact .inr hu
    · left
      rw [List.append_assoc]
      refine (cut_run (fun c hc => mem_spaces hc) fun c hc => h1 c ?_).2
      cases u with
      | nil => exact absurd rfl hu
      | cons d u => simpa using hc
  rcases e1 with e1 | rfl
  · rw [e1, List.reverse_append, reverse_spaces, (cut_run (fun c hc => mem_spaces hc) fun c hc => h2 c ?_).2,
      List.reverse_reverse]
    simpa using hc
  · have : spaces a ++ [] ++ spaces b = spaces (a + b) := by simp [spaces]
    rw [this, List.dropWhile_eq_nil_iff.mpr fun c hc => mem_spaces hc]
    rfl

/-- A text is its trimmed form with spaces around it. -/
theorem trim_spec (t : Text) : Trimmed (trim t) ∧ ∃ a b, t = spaces a ++ trim t ++ spaces b := by
  obtain ⟨e1, a1, h1⟩ := run_before isSpace t
  obtain ⟨e2, a2, h2⟩ := run_before isSpace (t.dropWhile isSpace).reverse
  have e3 : t.dropWhile isSpace = trim t ++ ((t.dropWhile isSpace).reverse.takeWhile isSpace).reverse := by
    have := congrArg List.reverse e2
    rwa [List.reverse_reverse, List.reverse_append] at this
  refine ⟨⟨fun c hc => h1 c ?_, fun c hc => h2 c ?_⟩, (t.takeWhile isSpace).length,
    ((t.dropWhile isSpace).reverse.takeWhile isSpace).length, ?_⟩
  · rw [e3]
    cases h : trim t with
    | nil => simp [h] at hc
    | cons d u => simpa [h] using hc
  · simpa [trim] using hc
  · rw [← spaces_of_all a1]
    rw [← reverse_spaces, ← spaces_of_all a2, List.append_assoc, ← e3]
    exact e1

/-! ## Tokens -/

/-- A token: some characters, none of them a space. -/
def Token (w : Text) : Prop := w ≠ [] ∧ ∀ c ∈ w, isSpace c = false

theorem wordsFrom_token {w : Text} (hw : ∀ c ∈ w, isSpace c = false) (cur t : Text) :
    wordsFrom cur (w ++ t) = wordsFrom (cur ++ w) t := by
  induction w generalizing cur with
  | nil => simp
  | cons c w ih =>
    have e : wordsFrom cur (c :: (w ++ t)) = wordsFrom (cur ++ [c]) (w ++ t) := by simp [wordsFrom, hw c]
    rw [List.cons_append, e, ih fun d hd => hw d (by simp [hd]), List.append_assoc]
    rfl

theorem words_spaces (a : Nat) (t : Text) : words (spaces a ++ t) = words t := by
  induction a with
  | zero => simp [spaces]
  | succ a ih =>
    have : spaces (a + 1) ++ t = 0x20 :: (spaces a ++ t) := by simp [spaces, List.replicate_succ]
    rw [this]
    simpa [words, wordsFrom, isSpace] using ih

/-- The first token of a text that starts with one. -/
theorem words_token {w : Text} (h : Token w) (n : Nat) (t : Text) : words (w ++ spaces (n + 1) ++ t) = w :: words t := by
  have : w ++ spaces (n + 1) ++ t = w ++ (0x20 :: (spaces n ++ t)) := by simp [spaces, List.replicate_succ]
  rw [this, words, wordsFrom_token h.2]
  have e : wordsFrom ([] ++ w) (0x20 :: (spaces n ++ t)) = w :: wordsFrom [] (spaces n ++ t) := by
    simp [wordsFrom, isSpace, h.1]
  rw [e]
  exact congrArg (w :: ·) (words_spaces n t)

theorem words_last {w : Text} (h : Token w) (n : Nat) : words (w ++ spaces n) = [w] := by
  rw [words, wordsFrom_token h.2]
  cases n with
  | zero => simp [spaces, wordsFrom, h.1]
  | succ n =>
    have e : wordsFrom ([] ++ w) (spaces (n + 1)) = w :: words (spaces n ++ []) := by
      simp [spaces, List.replicate_succ, wordsFrom, isSpace, h.1, words]
    rw [e, words_spaces]
    rfl

/-- A text without tokens is made of spaces. -/
theorem words_nil {t : Text} (h : words t = []) : ∃ a, t = spaces a := by
  obtain ⟨e, ha, hr⟩ := run_before isSpace t
  rw [spaces_of_all ha] at e
  generalize (t.takeWhile isSpace).length = a at e
  cases hd : t.dropWhile isSpace with
  | nil => exact ⟨a, by rw [e, hd, List.append_nil]⟩
  | cons c r =>
    exfalso
    have hc := hr c (by rw [hd]; rfl)
    obtain ⟨e2, ha2, hr2⟩ := run_before (fun c => !isSpace c) (c :: r)
    have ht : Token ((c :: r).takeWhile fun c => !isSpace c) :=
      ⟨by simp [hc], fun d hd => by simpa using ha2 d hd⟩
    rw [e, hd, words_spaces, e2, words, wordsFrom_token ht.2, List.nil_append] at h
    cases h3 : (c :: r).dropWhile fun c => !isSpace c with
    | nil => simp [h3, wordsFrom, ht.1] at h
    | cons d s =>
      have hd2 := hr2 d (by rw [h3]; rfl)
      simp only [Bool.not_eq_false'] at hd2
      simp [h3, wordsFrom, ht.1, hd2] at h

/-- A text with a first token: spaces, the token, and then nothing or a space and the other tokens. -/
theorem words_cons {t w : Text} {ws : List Text} (h : words t = w :: ws) :
    Token w ∧ ∃ a, (t = spaces a ++ w ∧ ws = []) ∨
      ∃ r, t = spaces a ++ w ++ spaces 1 ++ r ∧ words r = ws := by
  obtain ⟨e, ha, hr⟩ := run_before isSpace t
  rw [spaces_of_all ha] at e
  generalize (t.takeWhile isSpace).length = a at e
  cases hd : t.dropWhile isSpace with
  | nil =>
    rw [e, hd, words_spaces] at h
    simp [words, wordsFrom] at h
  | cons c r =>
    have hc := hr c (by rw [hd]; rfl)
    obtain ⟨e2, ha2, hr2⟩ := run_before (fun c => !isSpace c) (c :: r)
    have ht : Token ((c :: r).takeWhile fun c => !isSpace c) :=
      ⟨by simp [hc], fun d hd => by simpa using ha2 d hd⟩
    rw [hd, e2] at e
    generalize (c :: r).takeWhile (fun c => !isSpace c) = u at e ht
    cases h3 : (c :: r).dropWhile fun c => !isSpace c with
    | nil =>
      rw [h3, List.append_nil] at e
      rw [e, words_spaces, ← List.append_nil u, show ([] : Text) = spaces 0 from rfl, words_last ht 0] at h
      cases h
      exact ⟨ht, a, .inl ⟨e, rfl⟩⟩
    | cons d s =>
      have hd2 := hr2 d (by rw [h3]; rfl)
      have hd3 : d = 0x20 := by simpa [isSpace] using hd2
      subst hd3
      rw [h3] at e
      have e4 : t = spaces a ++ (u ++ spaces 1 ++ s) := by simpa [spaces] using e
      rw [e4, words_spaces, words_token ht 0] at h
      cases h
      exact ⟨ht, a, .inr ⟨s, by simpa using e4, rfl⟩⟩

/-! ## Numbers -/

theorem splitSign_cases (t : Text) :
    (∃ r, t = 0x2D :: r ∧ splitSign t = (true, r)) ∨ (∃ r, t = 0x2B :: r ∧ splitSign t = (false, r)) ∨
      ((∀ c ∈ t.head?, c ≠ 0x2D ∧ c ≠ 0x2B) ∧ splitSign t = (false, t)) := by
  cases t with
  | nil => exact .inr (.inr ⟨by simp, rfl⟩)
  | cons c t =>
    rw [splitSign]
    by_cases h1 : c = 0x2D
    · exact .inl ⟨t, by rw [h1], if_pos h1⟩
    · by_cases h2 : c = 0x2B
      · exact .inr (.inl ⟨t, by rw [h2], by rw [if_neg h1, if_pos h2]⟩)
      · exact .inr (.inr ⟨fun d hd => by cases hd; exact ⟨h1, h2⟩, by rw [if_neg h1, if_neg h2]⟩)

/-- The sign of R82 and the text after it. -/
theorem splitSign_spec (t : Text) :
    ∃ sign, SignText sign ∧ t = sign ++ (splitSign t).2 ∧ (splitSign t).1 = decide (sign = [0x2D]) := by
  rcases splitSign_cases t with ⟨r, rfl, e⟩ | ⟨r, rfl, e⟩ | ⟨-, e⟩ <;> rw [e]
  · exact ⟨[0x2D], .inr (.inr rfl), rfl, rfl⟩
  · exact ⟨[0x2B], .inr (.inl rfl), rfl, rfl⟩
  · exact ⟨[], .inl rfl, rfl, rfl⟩

theorem splitSign_append {sign t : Text} (hs : SignText sign) (ht : ∀ c ∈ t.head?, c ≠ 0x2D ∧ c ≠ 0x2B) :
    splitSign (sign ++ t) = (decide (sign = [0x2D]), t) := by
  rcases hs with rfl | rfl | rfl
  · rcases splitSign_cases t with ⟨r, rfl, -⟩ | ⟨r, rfl, -⟩ | ⟨-, e⟩
    · exact absurd rfl (ht 0x2D (by simp)).1
    · exact absurd rfl (ht 0x2B (by simp)).2
    · exact e
  · rfl
  · rfl

theorem digit_ne {c : Byte} (h : isDigit c = true) : c ≠ 0x2D ∧ c ≠ 0x2B ∧ c ≠ 0x2E ∧ c ≠ 0x20 := by
  refine ⟨?_, ?_, ?_, ?_⟩ <;> rintro rfl <;> exact absurd h (by decide)

theorem digits_head {t : Text} (h : t.all isDigit = true) : ∀ c ∈ t.head?, c ≠ 0x2D ∧ c ≠ 0x2B := by
  cases t with
  | nil => simp
  | cons d t =>
    simp only [List.all_cons, Bool.and_eq_true] at h
    have := digit_ne h.1
    exact fun e he => by cases he; exact ⟨this.1, this.2.1⟩

/-- The exponent of R82. -/
theorem exponent?_iff (t : Text) (e : Int) : exponent? t = some e ↔ ExponentText t e := by
  cases t with
  | nil =>
    constructor
    · intro h
      cases h
      exact .inl ⟨rfl, rfl⟩
    · rintro (⟨-, rfl⟩ | ⟨c, sign, digits, h, -⟩)
      · rfl
      · cases h
  | cons c t =>
    constructor
    · intro h
      obtain ⟨sign, hs, ht, hn⟩ := splitSign_spec t
      unfold exponent? at h
      simp only at h
      split_ifs at h with hc hneg
      · cases h
        rw [hneg] at hn
        refine .inr ⟨c, sign, _, by rw [ht.symm], hc.1, hs, hc.2.1, hc.2.2.1, hc.2.2.2, ?_⟩
        rw [if_pos (of_decide_eq_true hn.symm)]
        ring
      · cases h
        refine .inr ⟨c, sign, _, by rw [ht.symm], hc.1, hs, hc.2.1, hc.2.2.1, hc.2.2.2, ?_⟩
        rw [hn] at hneg
        rw [if_neg (by simpa using hneg)]
        ring
    · rintro (⟨h, -⟩ | ⟨c', sign, digits, h, hc, hs, hd, h1, h4, rfl⟩)
      · cases h
      · cases h
        rw [exponent?, splitSign_append hs (digits_head hd)]
        simp only
        rw [if_pos ⟨hc, hd, h1, h4⟩]
        by_cases h2 : sign = [0x2D] <;> simp [h2]

theorem exponentText_head {t : Text} {e : Int} (h : ExponentText t e) : ∀ c ∈ t.head?, isDigit c = false ∧ c ≠ 0x2E := by
  rcases h with ⟨rfl, -⟩ | ⟨c, sign, digits, rfl, hc, -⟩
  · simp
  · rcases hc with rfl | rfl <;> simp [isDigit]

/-- The fraction of R82 and the text after it. -/
theorem splitFraction_spec (t : Text) :
    ∃ point, t = point ++ (splitFraction t).1 ++ (splitFraction t).2 ∧ (splitFraction t).1.all isDigit = true ∧
      ((point = [] ∧ (splitFraction t).1 = []) ∨ point = [0x2E]) := by
  cases t with
  | nil => exact ⟨[], rfl, rfl, .inl ⟨rfl, rfl⟩⟩
  | cons c t =>
    rw [splitFraction]
    split_ifs with h
    · obtain ⟨e, ha, -⟩ := run_before isDigit t
      refine ⟨[0x2E], ?_, List.all_eq_true.mpr ha, .inr rfl⟩
      rw [h]
      simp
    · exact ⟨[], rfl, rfl, .inl ⟨rfl, rfl⟩⟩

theorem splitFraction_append {point frac t : Text} (hf : frac.all isDigit = true)
    (hp : (point = [] ∧ frac = []) ∨ point = [0x2E]) (ht : ∀ c ∈ t.head?, isDigit c = false ∧ c ≠ 0x2E) :
    splitFraction (point ++ frac ++ t) = (frac, t) := by
  rcases hp with ⟨rfl, rfl⟩ | rfl
  · cases t with
    | nil => rfl
    | cons c t =>
      show splitFraction (c :: t) = _
      rw [splitFraction, if_neg (ht c rfl).2]
  · obtain ⟨e1, e2⟩ := cut_run (a := frac) (b := t) (List.all_eq_true.mp hf) fun c hc => (ht c hc).1
    simp [splitFraction, e1, e2]

/-- The number of R82. -/
theorem number?_iff (t : Text) (x : Number) : number? t = some x ↔ NumberText t x := by
  constructor
  · intro h
    obtain ⟨sign, hs, ht, hn⟩ := splitSign_spec t
    unfold number? at h
    simp only at h
    split_ifs at h with hne
    generalize (splitSign t).2 = r at h ht hne
    obtain ⟨er, hw, -⟩ := run_before isDigit r
    obtain ⟨point, ef, hf, hp⟩ := splitFraction_spec (r.dropWhile isDigit)
    generalize r.takeWhile isDigit = whole at er hw h hne
    generalize r.dropWhile isDigit = q at er ef hf hp h hne
    obtain ⟨e, he, rfl⟩ := Option.map_eq_some_iff.mp h
    refine ⟨sign, whole, point, (splitFraction q).1, (splitFraction q).2, e, ?_, hs, List.all_eq_true.mpr hw, hf, hp,
      ?_, (exponent?_iff _ _).mp he, hn, ?_⟩
    · rw [ht, er]
      simp only [List.append_assoc] at ef ⊢
      rw [← ef]
    · by_contra hc
      exact hne (by simpa using hc)
    · simp only [decimalMag]
      rw [zpow_sub₀ (by norm_num), zpow_natCast, mul_div_assoc]
  · rintro ⟨sign, whole, point, frac, exp, e, rfl, hs, hw, hf, hp, hne, he, hneg, hmag⟩
    have hx := exponentText_head he
    have hrest : ∀ c ∈ (point ++ frac ++ exp).head?, isDigit c = false := by
      rcases hp with ⟨rfl, rfl⟩ | rfl
      · simpa using fun c hc => (hx c hc).1
      · simp [isDigit]
    have hhead : ∀ c ∈ (whole ++ (point ++ frac ++ exp)).head?, c ≠ 0x2D ∧ c ≠ 0x2B := by
      cases whole with
      | nil =>
        rcases hp with ⟨rfl, rfl⟩ | rfl
        · simp at hne
        · simp
      | cons d w => simpa using digits_head hw
    obtain ⟨c1, c2⟩ := cut_run (List.all_eq_true.mp hw) hrest
    have e1 : sign ++ whole ++ point ++ frac ++ exp = sign ++ (whole ++ (point ++ frac ++ exp)) := by simp
    unfold number?
    rw [e1, splitSign_append hs hhead]
    simp only [c1, c2, splitFraction_append hf hp hx, (exponent?_iff _ _).mpr he]
    rw [if_neg (by rcases hne with h | h <;> simp [h])]
    obtain ⟨neg, mag⟩ := x
    simp only at hneg hmag
    simp only [Option.map_some, Option.some.injEq, Number.mk.injEq, hneg, hmag, true_and, decimalMag]
    rw [zpow_sub₀ (by norm_num), zpow_natCast, mul_div_assoc]

/-- A number's text is a token with no space in it. -/
theorem NumberText.token {t : Text} {x : Number} (h : NumberText t x) : Token t := by
  obtain ⟨sign, whole, point, frac, exp, e, rfl, hs, hw, hf, hp, hne, he, -⟩ := h
  have hd : ∀ {u : Text}, u.all isDigit = true → ∀ c ∈ u, isSpace c = false := fun hu c hc => by
    have := (digit_ne (List.all_eq_true.mp hu c hc)).2.2.2
    simpa [isSpace] using this
  have hsg : ∀ {u : Text}, SignText u → ∀ c ∈ u, isSpace c = false := by
    rintro u (rfl | rfl | rfl) c hc <;> simp at hc <;> subst hc <;> rfl
  refine ⟨by rcases hne with h | h <;> simp [h], fun c hc => ?_⟩
  simp only [List.mem_append] at hc
  rcases hc with (((hc | hc) | hc) | hc) | hc
  · exact hsg hs c hc
  · exact hd hw c hc
  · rcases hp with ⟨rfl, -⟩ | rfl <;> simp at hc
    subst hc
    rfl
  · exact hd hf c hc
  · rcases he with ⟨rfl, -⟩ | ⟨k, sg, ds, rfl, hk, hsg', hds, -⟩
    · simp at hc
    · simp only [List.mem_cons, List.mem_append] at hc
      rcases hc with rfl | hc | hc
      · rcases hk with rfl | rfl <;> rfl
      · exact hsg hsg' c hc
      · exact hd hds c hc

theorem Token.trimmed {t : Text} (h : Token t) : Trimmed t :=
  ⟨fun c hc => h.2 c (List.mem_of_mem_head? hc), fun c hc => h.2 c (List.mem_of_mem_getLast? hc)⟩

end Sys2Proof.Machine
end

