-- ==== Sys2Proof/Tests/Slice0.lean ====
section
/-! SUPPORT. The model's own tests: ill-formed commands are refused, packets written out from the tables of
30_encoding.md decode, single steps give what 95_test_vectors.md says (each vector's name stands at its test), and every
statement's hypotheses can be met. -/

namespace Sys2Proof.Tests

-- Kernel evaluations wait for one another: elaborated one by one they do not pile up threads.
set_option Elab.async false

open Sys2Proof Sys2Proof.Machine

/-! ## Helpers -/

/-- A text from its characters (R55). -/
def text (cs : List Char) : Text := cs.map fun c => BitVec.ofNat 8 c.toNat

/-- The state after an outcome, where there is one. -/
def after : Host.Outcome State Fault Refusal → Option State
  | .next s => some s
  | .fault _ => none
  | .refused _ => none

/-- Why a command was refused, where it was. -/
def refusal : Host.Outcome State Fault Refusal → Option Refusal
  | .next _ => none
  | .fault _ => none
  | .refused r => some r

theorem next_of_after {o : Host.Outcome State Fault Refusal} (h : (after o).isSome = true) : ∃ t, o = .next t := by
  cases o with
  | next t => exact ⟨t, rfl⟩
  | fault r => cases h
  | refused r => cases h

theorem refused_of_refusal {o : Host.Outcome State Fault Refusal} {r : Refusal} (h : refusal o = some r) :
    o = .refused r := by
  cases o <;> simp_all [refusal]

/-- The conventional start state of 95_test_vectors.md: `FILL; CRST` from reset, one block, all bytes 0. -/
def ready : State := { State.reset with buf := (List.range 32).map fun i => (i, 0) }

/-- The start state with `VAL` loaded and the cursor moved. -/
def loaded (v : Word) (i o : Nat) : State := { ready.moveTo i o with val := some v }

/-- A state in which a `ParseError` is recorded. -/
def faulted : State := { ready with err := .parseError }

/-- A state with what the host sends next. -/
def sent (s : State) (bytes : List Byte) : State := { s with host := [.send bytes] }

/-- The invariant as a test that runs. -/
def invHolds (s : State) : Bool :=
  decide s.params.wf && decide (Memory.wf s.buf) && s.buf.all (fun c => decide (c.1 < s.bufSize)) &&
    decide (s.byteIndex % Config.block ≠ 0) && decide (s.byteIndex ≤ s.bufSize + 1) &&
    decide (s.bitOffset ≠ 0 → s.byteIndex < s.bufSize)

theorem inv_of_holds {s : State} (h : invHolds s = true) : s.Inv := by
  simp only [invHolds, Bool.and_eq_true, decide_eq_true_eq, List.all_eq_true] at h
  exact ⟨h.1.1.1.1.1, h.1.1.1.1.2, h.1.1.1.2, h.1.1.2, h.1.2, h.2⟩

/-! ## Ill-formed commands (R52, R54) -/

theorem test_wf_len_0 : (Instr.append 0).wf = false := by decide
theorem test_wf_len_33 : (Instr.append 33).wf = false := by decide
theorem test_wf_len_63 : (Instr.append 63).wf = false := by decide

theorem test_wf_raw_256 : let long : Text := List.replicate 256 0x30
    (Instr.cvtUnint long []).wf = false ∧ (Instr.cvtChr5 long []).wf = false ∧ (Instr.cvtDate long []).wf = false ∧
    (Instr.cvtConres long []).wf = false ∧ (Instr.cvtConrelres long []).wf = false ∧
    (Instr.cvtSingle long []).wf = false ∧ (Instr.cvtUnrec false long []).wf = false := by decide +kernel

theorem test_wf_rng_256 : let long : Text := List.replicate 256 0x30
    (Instr.cvtUnint [] long).wf = false ∧ (Instr.cvtChr5 [] long).wf = false ∧ (Instr.cvtDate [] long).wf = false ∧
    (Instr.cvtConres [] long).wf = false ∧ (Instr.cvtConrelres [] long).wf = false ∧
    (Instr.cvtSingle [] long).wf = false ∧ (Instr.cvtUnrec true [] long).wf = false := by decide +kernel

/-! ## Packets, bit by bit from R51 to R57 -/

theorem test_decode_fill : decode [0b00000001, 0b00000000] = .ok (.fill, []) := by decide
theorem test_decode_crst : decode [0b00000010, 0b00000000] = .ok (.crst, []) := by decide
theorem test_decode_ldv :
    decode [0b00000011, 0, 0x00, 0x00, 0x0A, 0xBC, 0x21] = .ok (.ldv 0x00000ABC, [0x21]) := by decide
theorem test_decode_unint : decode [0b00010000, 0, 1, 0x35, 0] = .ok (.cvtUnint [0x35] [], []) := by decide
theorem test_decode_chr5 : decode [0b00010001, 0, 2, 0x41, 0x42, 0] = .ok (.cvtChr5 [0x41, 0x42] [], []) := by decide
theorem test_decode_date : decode [0b00010010, 0, 1, 0x2D, 0] = .ok (.cvtDate [0x2D] [], []) := by decide
theorem test_decode_conres : decode [0b00010011, 0, 1, 0x31, 2, 0x30, 0x20] = .ok (.cvtConres [0x31] [0x30, 0x20], []) := by
  decide
/-- The packet of `CVT.CONRELRES` in section 2.7. -/
theorem test_decode_conrelres :
    decode [0b00010100, 0, 0x01, 0x32, 0x0D, 0x31, 0x20, 0x74, 0x6F, 0x20, 0x31, 0x30, 0x30, 0x30, 0x20, 0xB1, 0x31,
      0x25] = .ok (.cvtConrelres (text ['2'])
        (text ['1', ' ', 't', 'o', ' ', '1', '0', '0', '0', ' ', '±', '1', '%']), []) := by decide
theorem test_decode_single : decode [0b00010101, 0, 0, 0] = .ok (.cvtSingle [] [], []) := by decide
theorem test_decode_unrec6 : decode [0b00010110, 0, 1, 0x78, 0] = .ok (.cvtUnrec false [0x78] [], []) := by decide
theorem test_decode_unrec7 :
    decode [0b00010111, 0, 1, 0x35, 2, 0x7A, 0x7A] = .ok (.cvtUnrec true [0x35] [0x7A, 0x7A], []) := by decide
theorem test_decode_append : decode [0b00100000, 0b00100000] = .ok (.append 32, []) := by decide
theorem test_decode_term : decode [0b00100001, 0b00000000] = .ok (.term, []) := by decide
theorem test_decode_csum : decode [0b00110000, 0b00000000] = .ok (.csum, []) := by decide

/-- R58, and the refused packets of P14. -/
theorem test_decode_reserved :
    decode [0x00, 0] = .error .opcode ∧ decode [0x18, 0] = .error .opcode ∧ decode [0x01, 1] = .error .arg ∧
    decode [0x20, 0x00] = .error .len ∧ decode [0x20, 0x21] = .error .len ∧ decode [0x20, 0x48] = .error .highBits ∧
    decode [0x03, 0, 1, 2, 3] = .error .truncated ∧ decode [0x10, 0, 1, 0x35] = .error .truncated ∧
    decode [0x21] = .error .truncated := by decide

/-- The opcode-table words of `TERM` and of `APPEND 8`. -/
theorem test_table_words : decodeTableWord 16 0x2100 = some .term ∧ decodeTableWord 16 0x2008 = some (.append 8) := by
  decide +kernel

/-! ## One step each -/

/-- L1. -/
theorem test_fill : (after (exec .fill State.reset)).map (fun t => (t.buf, t.err, t.val, t.cur)) =
    some ((List.range 32).map fun i => (i, 0), .none, none, { byteIndex := 1, bitOffset := 0 }) := by decide +kernel

/-- Two blocks with the pattern of L4. -/
def marked : Params where
  nblk := 2
  initPat := { fill := 0, marks := [(31, 0xA5), (63, 0xA5)] }
  roundTie := .halfUp
  epsLn := 0

/-- F6, with the pattern of L4: `FILL` is the way out of an error, and writes the marked bytes. -/
theorem test_fill_marks :
    (after (exec .fill { faulted with params := marked })).map (fun t => (t.err, t.byte 30, t.byte 31, t.byte 32, t.byte 63)) =
    some (.none, 0, 0xA5, 0, 0xA5) := by decide +kernel

/-- L2. -/
theorem test_crst : (after (exec .crst { loaded 0xABC 2 7 with fidx := 2 })).map (fun t => (t.cur, t.fidx, t.val)) =
    some ({ byteIndex := 1, bitOffset := 0 }, 0, some 0xABC) := by decide +kernel

/-- The example of R124. -/
theorem test_ldv : (after (step (sent ready [0x03, 0, 0x00, 0x00, 0x0A, 0xBC]))).map (·.val) = some (some 0xABC) := by
  decide +kernel

/-- F5. -/
theorem test_ldv_inert : (after (exec (.ldv 7) faulted)).map (fun t => (t.val, t.err)) = some (none, .parseError) := by
  decide +kernel

/-- Section 2.3. -/
theorem test_unint : (after (exec (.cvtUnint (text ['-', '5', '.', '9']) []) ready)).map (·.val) =
    some (some 0xFFFFFFFB) := by decide +kernel

/-- Section 2.3. -/
theorem test_unint_too_large : refusal (exec (.cvtUnint (text ['1', 'e', '1', '0']) []) ready) =
    some .resultOutOfRange := by decide +kernel

/-- Section 2.4. -/
theorem test_chr5 : (after (exec (.cvtChr5 (text ['A', 'B', 'C', 'D', 'E', 'F', 'G']) []) ready)).map (·.val) =
    some (some 0xCC520C41) := by decide +kernel

/-- Section 2.5. -/
theorem test_date :
    (after (exec (.cvtDate (text [' ', '2', '0', '0', '0', '-', '0', '3', '-', '0', '1', ' ']) []) ready)).map (·.val) =
    some (some 790) := by decide +kernel

/-- Section 2.5: 1900 is no leap year. -/
theorem test_date_invalid :
    (after (exec (.cvtDate (text ['1', '9', '0', '0', '-', '0', '2', '-', '2', '9']) []) ready)).map (·.err) =
    some .parseError := by decide +kernel

/-- "0 to 1 step 0.1". -/
def tenths : Text := text ['0', ' ', 't', 'o', ' ', '1', ' ', 's', 't', 'e', 'p', ' ', '0', '.', '1']

/-- Section 2.6. -/
theorem test_conres : (after (exec (.cvtConres (text ['0', '.', '2', '6']) tenths) ready)).map (·.val) =
    some (some 3) := by decide +kernel

/-- Section 2.6: 5/2 under `half_even`. -/
theorem test_conres_half : (after (exec (.cvtConres (text ['0', '.', '2', '5']) tenths)
    { ready with params := { Params.default with roundTie := .halfEven } })).map (·.val) = some (some 2) := by
  decide +kernel

/-- "1 to 9 ±<pct>%". -/
def ratios (pct : List Char) : Text := text (['1', ' ', 't', 'o', ' ', '9', ' ', '±'] ++ pct ++ ['%'])

/-- Section 2.7: an exact half, 3/2. -/
theorem test_conrelres_half : (after (exec (.cvtConrelres (text ['8']) (ratios ['1', '5', '0'])) ready)).map (·.val) =
    some (some 2) := by decide +kernel

/-- Section 2.7: a base below 1. -/
theorem test_conrelres_down : (after (exec (.cvtConrelres (text ['2']) (ratios ['-', '2', '5'])) ready)).map (·.val) =
    some (some 0xFFFFFFFF) := by decide +kernel

/-- Section 2.8. -/
theorem test_single : (after (exec (.cvtSingle (text ['-', '2', '.', '5']) []) ready)).map (·.val) =
    some (some 0xC0200000) := by decide +kernel

/-- Section 2.8: an exact half, to the even fraction. -/
theorem test_single_half :
    (after (exec (.cvtSingle (text ['1', '6', '7', '7', '7', '2', '1', '9']) []) ready)).map (·.val) =
    some (some 0x4B800002) := by decide +kernel

/-- F1. -/
theorem test_unrec : (after (exec (.cvtUnrec false (text ['x']) []) ready)).map (fun t => (t.err, t.val)) =
    some (.unrecognizedType, none) := by decide +kernel

/-- P7, its second field: five bytes from the middle of a byte. -/
theorem test_append : (after (exec (.append 32) ((loaded 0xDEADBEEF 1 4).setByte 1 0xF0))).map
    (fun t => ((List.range 6).map t.byte, t.cur, t.fidx)) =
    some ([0x00, 0xFD, 0xEA, 0xDB, 0xEE, 0xF0], { byteIndex := 5, bitOffset := 4 }, 1) := by decide +kernel

/-- R183: a field that does not fit leaves the cursor at the refused byte. -/
theorem test_append_overflow : (after (exec (.append 16) (loaded 0xABCD 31 0))).map (fun t => (t.err, t.cur, t.fidx)) =
    some (.bufferOverflow, { byteIndex := 33, bitOffset := 0 }, 0) := by decide +kernel

/-- P10. -/
theorem test_term : (after (exec .term ((loaded 5 1 3).setByte 1 0xA0))).map
    (fun t => ((List.range 4).map t.byte, t.cur)) =
    some ([0x00, 0xA0, 0xFF, 0x00], { byteIndex := 3, bitOffset := 0 }) := by decide +kernel

/-- R129's last corner case. -/
theorem test_term_overflow : (after (exec .term (loaded 5 31 3))).map (fun t => (t.err, t.cur)) =
    some (.bufferOverflow, { byteIndex := 33, bitOffset := 0 }) := by decide +kernel

/-- S1, the last step. -/
theorem test_csum : (after (exec .csum (((loaded 5 3 0).setByte 1 5).setByte 2 0xFF))).map (·.byte 0) = some 0xFC := by
  decide +kernel

/-- K2: signed and unsigned sums agree. -/
theorem test_csum_signed : (after (exec .csum (((loaded 5 3 0).setByte 1 0x80).setByte 2 0xFF))).map (·.byte 0) =
    some 0x81 := by decide +kernel

/-! ## The hypotheses of the statements can be met -/

theorem ready_inv : ready.Inv := inv_of_holds (by decide +kernel)

/-- `APPEND 8` sent to a state of the invariant. -/
def sending : State := sent (loaded 5 1 0) [0x20, 8]

theorem witness_StepKeepsInv : ∃ t, sending.Inv ∧ step sending = .next t :=
  have ⟨t, h⟩ := next_of_after (o := step sending) (by decide +kernel)
  ⟨t, inv_of_holds (by decide +kernel), h⟩

/-- A state inside byte 31 of the marked pattern's buffer to which `FILL` is sent. -/
def refilling : State := sent { loaded 5 31 3 with params := marked, buf := [] } [0x01, 0]

/-- `APPEND`, and `FILL` inside a byte under the all-zero pattern. -/
theorem witness_StepKeepsFreeBitsClear : ∃ t u, sending.Inv ∧ sending.FreeBitsClear ∧ step sending = .next t ∧
    (fetch sending).1 ≠ .command .fill ∧ (sent (loaded 5 31 3) [0x01, 0]).Inv ∧
    (sent (loaded 5 31 3) [0x01, 0]).FreeBitsClear ∧ step (sent (loaded 5 31 3) [0x01, 0]) = .next u ∧
    (loaded 5 31 3).bitOffset ≠ 0 ∧ ∀ j < 8 - 3, (0 : Byte).getLsbD j = false :=
  have ⟨t, ht⟩ := next_of_after (o := step sending) (by decide +kernel)
  have ⟨u, hu⟩ := next_of_after (o := step (sent (loaded 5 31 3) [0x01, 0])) (by decide +kernel)
  ⟨t, u, inv_of_holds (by decide +kernel), fun _ h => absurd rfl h, ht, by decide, inv_of_holds (by decide +kernel),
    fun _ _ => by decide +kernel, hu, by decide, by decide⟩

/-- R161 against the second half of R16 (c) (log entry 9): `FILL` inside a byte leaves the pattern's bit 0 below the
cursor. -/
theorem witness_FillInsideAByte : refilling.bitOffset = 3 ∧
    (after (step refilling)).map (fun t => (t.err, t.byteIndex, t.bitOffset, (t.byte 31).getLsbD 0)) =
      some (.none, 31, 3, true) := by decide +kernel

theorem witness_StepRunsDecodedCommand :
    decode [0x20, 8, 0x21, 0] = .ok (.append 8, [0x21, 0]) ∧ decode [0x21, 0] = .ok (.term, []) := by decide

theorem witness_StepResetsAndWaits : State.reset.host = [] := rfl

theorem witness_PlacedWordRunsNext : decodeTableWord 16 0x3000 = some .csum := by decide +kernel

theorem witness_StepKeepsParameters : ∃ t, step sending = .next t := next_of_after (by decide +kernel)

theorem witness_FaultedCommandsAreInert :
    (Instr.append 1).wf = true ∧ (Instr.append 32).wf = true ∧ Instr.append 32 ≠ .fill ∧ faulted.err ≠ .none := by decide

theorem witness_OnlyFillAndResetClearErrors : ∃ t u, step (sent faulted [0x01, 0]) = .next t ∧ t.err = .none ∧
    step { faulted with host := [.reset] } = .next u ∧ u.err = .none ∧ faulted.err ≠ .none :=
  ⟨_, _, rfl, rfl, rfl, rfl, by decide⟩

theorem witness_NoStepFaults : sending.Inv := inv_of_holds (by decide +kernel)

theorem witness_CommandsRefuseOnlyWhereStated : (Instr.append 8).wf = true ∧
    exec (.append 8) ready = .refused .valAbsent ∧ (Instr.cvtUnint (text ['1', 'e', '1', '0']) []).wf = true ∧
    exec (.cvtUnint (text ['1', 'e', '1', '0']) []) ready = .refused .resultOutOfRange :=
  ⟨by decide, refused_of_refusal (by decide +kernel), by decide, refused_of_refusal (by decide +kernel)⟩

theorem witness_ValHoldsAValueUntilReset :
    ∃ t, step sending = .next t ∧ sending.val ≠ none ∧ (fetch sending).1 ≠ .hostReset :=
  have ⟨t, h⟩ := next_of_after (o := step sending) (by decide +kernel)
  ⟨t, h, by decide, by decide⟩

theorem witness_DecodeEncodeRoundTrip : (Instr.append 1).wf = true ∧ (Instr.append 32).wf = true ∧
    (Instr.cvtUnrec true [] []).wf = true ∧
    (Instr.cvtConres (List.replicate 255 0x30) (List.replicate 255 0x20)).wf = true := by decide +kernel

theorem witness_DecodedBytesAreAnEncoding : decode [0x20, 32, 7] = .ok (.append 32, [7]) := by decide

theorem witness_ReservedEncodingsAreRejected :
    (0x18 : Byte) ∉ ([0x01, 0x02, 0x03, 0x10, 0x11, 0x12, 0x13, 0x14, 0x15, 0x16, 0x17, 0x20, 0x21, 0x30] : List Byte) ∧
    (0xFF : Byte) ≠ 0 ∧ 64 ≤ (0x40 : Byte).toNat ∧ 64 ≤ (0xFF : Byte).toNat ∧
    33 ≤ (33 : Byte).toNat ∧ (63 : Byte).toNat ≤ 63 ∧ 5 < (encode (.ldv 0)).length := by decide

theorem witness_StepRefusesReserved : ([0x21] : List Byte) ≠ [] ∧ decode [0x21] = .error .truncated ∧
    decode [0x18, 0] = .error .opcode := by decide

theorem witness_FillWritesThePattern : 31 < faulted.bufSize ∧ Instr.csum.wf = true ∧ Instr.csum ≠ .fill ∧
    faulted.err ≠ .none := by decide

theorem witness_CrstStartsAPass : ready.err = .none ∧ faulted.err ≠ .none := by decide

theorem witness_LdvLoadsVal : ready.err = .none ∧ faulted.err ≠ .none ∧ decimal? (text ['7']) = some ⟨false, 7⟩ ∧
    (Number.mk false 7).val = ((7 : Word).toNat : ℚ) := by decide +kernel

theorem witness_ToU32Rule :
    (-2 ^ 31 ≤ (-2147483648 : Int) ∧ (-2147483648 : Int) ≤ 2 ^ 32 - 1) ∧
    (-2 ^ 31 ≤ (4294967295 : Int) ∧ (4294967295 : Int) ≤ 2 ^ 32 - 1) ∧
    ¬(-2 ^ 31 ≤ (4294967296 : Int) ∧ (4294967296 : Int) ≤ 2 ^ 32 - 1) ∧
    ¬(-2 ^ 31 ≤ (-2147483649 : Int) ∧ (-2147483649 : Int) ≤ 2 ^ 32 - 1) := by decide

theorem witness_RoundRule : |((3 : ℤ) : ℚ) - 13 / 5| < 1 / 2 ∧ (-1 / 2 : ℚ) = ((-1 : ℤ) : ℚ) + 1 / 2 := by
  constructor <;> norm_num [abs_lt]

theorem witness_UnintWritesTheTruncatedNumber : ready.err = .none ∧ faulted.err ≠ .none ∧ decimal? (text []) = none ∧
    decimal? (text ['-', '2', '1', '4', '7', '4', '8', '3', '6', '4', '8']) = some ⟨true, 2147483648⟩ ∧
    decimal? (text ['4', '2', '9', '4', '9', '6', '7', '2', '9', '5']) = some ⟨false, 4294967295⟩ ∧
    decimal? (text ['1', 'e', '1', '0']) = some ⟨false, 10000000000⟩ := by decide +kernel

theorem witness_Chr5FillsTheLanes : ready.err = .none ∧ faulted.err ≠ .none ∧ 31 < 32 := by decide

theorem witness_DayCountFollowsTheCalendar : Date.valid ⟨0, 1, 1⟩ = true ∧ Date.valid ⟨1900, 2, 28⟩ = true ∧
    Date.valid ⟨2000, 2, 29⟩ = true ∧ Date.valid ⟨9999, 12, 31⟩ = true := by decide

theorem witness_DateWritesTheDayNumber : ready.err = .none ∧ faulted.err ≠ .none ∧ date? (text []) = none ∧
    date? (text ['0', '0', '0', '0', '-', '0', '1', '-', '0', '1']) = some ⟨0, 1, 1⟩ ∧
    date? (text ['9', '9', '9', '9', '-', '1', '2', '-', '3', '1']) = some ⟨9999, 12, 31⟩ := by decide +kernel

theorem witness_ConresWritesTheIndex : ready.err = .none ∧ faulted.err ≠ .none ∧ decimal? (text ['x']) = none ∧ conresSpec? [] = none ∧
    decimal? (text ['5', 'e', '9']) = some ⟨false, 5000000000⟩ ∧ decimal? (text ['1']) = some ⟨false, 1⟩ ∧
    conresSpec? tenths = some ⟨0, 1, 1 / 10⟩ ∧
    conresSpec? (text ['0', ' ', 't', 'o', ' ', '1', ' ', 's', 't', 'e', 'p', ' ', '0']) = some ⟨0, 1, 0⟩ := by
  decide +kernel

theorem witness_ConresIndexWithinHalfAStep : (1 / 10 : ℚ) ≠ 0 := by norm_num

theorem witness_FloorLogIsExact : (0 : ℚ) < 2 ∧ (0 : ℚ) < 51 / 50 ∧ (51 / 50 : ℚ) ≠ 1 ∧ (0 : ℚ) < 1 / 2 ∧ (1 / 2 : ℚ) ≠ 1 := by
  norm_num

/-- A state whose `EPS_LN` is `e`. -/
def within (e : Rat) : State := { ready with params := { ready.params with epsLn := e } }

/-- An exact half, `ln 2 / ln 4`, and a quotient that is none, `ln 1 / ln 4`, under three values of `EPS_LN`: 0, with
which `ln 1 / ln 4` is far from every half, 1/4, the same, and 1/2, with which the half next to it is hit. -/
theorem witness_ChosenLogIsTheRoundedQuotient : ready.params.wf ∧ (0 : ℚ) < 2 ∧ (0 : ℚ) < 4 ∧ (4 : ℚ) ≠ 1 ∧
    Real.log ((2 : ℚ) : ℝ) / Real.log ((4 : ℚ) : ℝ) = ((0 : ℤ) : ℝ) + 1 / 2 ∧
    (∀ m : ℤ, Real.log ((1 : ℚ) : ℝ) / Real.log ((4 : ℚ) : ℝ) ≠ (m : ℝ) + 1 / 2) ∧
    (within (1 / 4)).params.wf ∧ (∀ m : ℤ, ((within (1 / 4)).params.epsLn : ℝ) <
      |Real.log ((1 : ℚ) : ℝ) / Real.log ((4 : ℚ) : ℝ) - ((m : ℝ) + 1 / 2)|) ∧
    (within (1 / 2)).params.wf ∧
    |Real.log ((1 : ℚ) : ℝ) / Real.log ((4 : ℚ) : ℝ) - (((0 : ℤ) : ℝ) + 1 / 2)| ≤ ((within (1 / 2)).params.epsLn : ℝ) := by
  refine ⟨by decide +kernel, by norm_num, by norm_num, by norm_num, ?_, fun m h => ?_, by decide +kernel, fun m => ?_,
    by decide +kernel, ?_⟩
  · have h4 : Real.log ((4 : ℚ) : ℝ) = 2 * Real.log 2 := by
      rw [show ((4 : ℚ) : ℝ) = 2 ^ 2 by norm_num, Real.log_pow]
      norm_num
    have h2 : Real.log 2 ≠ 0 := (Real.log_pos (by norm_num)).ne'
    rw [h4]
    push_cast
    field_simp
    norm_num
  · simp only [Rat.cast_one, Real.log_one, zero_div] at h
    have : (2 * m + 1 : ℤ) = 0 := by exact_mod_cast (by linarith : (2 * m + 1 : ℝ) = 0)
    omega
  · show (((1 / 4 : ℚ) : ℚ) : ℝ) < _
    simp only [Rat.cast_one, Real.log_one, zero_div]
    push_cast
    rw [lt_abs]
    rcases lt_or_ge m 0 with h | h
    · have : (m : ℝ) ≤ -1 := by exact_mod_cast (by omega : m ≤ -1)
      left; linarith
    · have : (0 : ℝ) ≤ m := by exact_mod_cast h
      right; linarith
  · show _ ≤ (((1 / 2 : ℚ) : ℚ) : ℝ)
    simp only [Rat.cast_one, Real.log_one, zero_div]
    push_cast
    rw [abs_le]; constructor <;> norm_num

theorem witness_ConrelresWritesTheIndex : ready.err = .none ∧ faulted.err ≠ .none ∧ decimal? (text ['8']) = some ⟨false, 8⟩ ∧
    conrelresSpec? (ratios ['1', '5', '0']) = some ⟨1, 9, 150⟩ ∧ (1 : ℚ) ≠ 0 ∧ (0 : ℚ) < 8 / 1 ∧
    (0 : ℚ) < 1 + 2 * 150 / 100 ∧ (1 + 2 * 150 / 100 : ℚ) ≠ 1 ∧ decimal? (text ['x']) = none ∧
    conrelresSpec? [] = none ∧ conrelresSpec? (ratios ['-', '5', '0']) = some ⟨1, 9, -50⟩ := by decide +kernel

theorem witness_SingleWritesThePattern : ready.err = .none ∧ faulted.err ≠ .none ∧ decimal? (text ['N', 'a', 'N']) = none ∧
    decimal? (text ['-', '0']) = some ⟨true, 0⟩ := by decide +kernel

theorem witness_SingleIsCorrectlyRounded :
    (0 : ℚ) ≤ 0 ∧ (0 : ℚ) < (2 ^ 25 - 1) * 2 ^ 103 ∧ (2 ^ 25 - 1) * 2 ^ 103 - 1 < ((2 ^ 25 - 1) * 2 ^ 103 : ℚ) := by
  norm_num

theorem witness_UnrecRaisesUnrecognizedType : ready.err = .none ∧ faulted.err ≠ .none := by decide

theorem witness_ConversionErrorsArePrecise : ∃ t, isConvert (.cvtUnrec false [] []) = true ∧
    exec (.cvtUnrec false [] []) ready = .next t ∧ t.err ≠ .none := ⟨_, rfl, rfl, by decide⟩

theorem witness_RegisterCommandsFrame : ∃ t u v, isConvert (.cvtChr5 [] []) = true ∧
    exec (.cvtChr5 [] []) ready = .next t ∧ exec .crst ready = .next u ∧ exec (.ldv 7) ready = .next v :=
  ⟨_, _, _, rfl, rfl, rfl, rfl⟩

theorem witness_DataBytesAreNumberedByIdx : 1 % 32 ≠ 0 ∧ 31 % 32 ≠ 0 ∧ 33 % 32 ≠ 0 := by decide

theorem witness_MemWriteIsGuarded : ready.bufSize ≤ 32 ∧ 31 < ready.bufSize := by decide

/-- One bit, and a 32-bit field that fills the buffer to its last bit. -/
theorem witness_AppendAddsTheFieldToTheStream :
    (loaded 5 31 7).Inv ∧ (loaded 5 31 7).err = .none ∧ (loaded 5 31 7).val = some 5 ∧
    streamPos (loaded 5 31 7) + (1 : BitVec 6).toNat ≤ streamRoom (loaded 5 31 7) ∧
    (loaded 5 28 0).Inv ∧ (loaded 5 28 0).err = .none ∧ (loaded 5 28 0).val = some 5 ∧
    streamPos (loaded 5 28 0) + (32 : BitVec 6).toNat = streamRoom (loaded 5 28 0) :=
  ⟨inv_of_holds (by decide +kernel), by decide, by decide, by decide,
    inv_of_holds (by decide +kernel), by decide, by decide, by decide⟩

/-- The full buffer, and a field one bit too long. -/
theorem witness_AppendOverflowsWithoutRoom :
    (loaded 5 33 0).Inv ∧ (loaded 5 33 0).err = .none ∧ (loaded 5 33 0).val = some 5 ∧
    streamRoom (loaded 5 33 0) < streamPos (loaded 5 33 0) + (1 : BitVec 6).toNat ∧
    (loaded 5 28 1).Inv ∧ (loaded 5 28 1).err = .none ∧ (loaded 5 28 1).val = some 5 ∧
    streamRoom (loaded 5 28 1) < streamPos (loaded 5 28 1) + (32 : BitVec 6).toNat :=
  ⟨inv_of_holds (by decide +kernel), by decide, by decide, by decide,
    inv_of_holds (by decide +kernel), by decide, by decide, by decide⟩

theorem witness_AppendEqualsBitSerial : (loaded 5 31 7).Inv ∧ (loaded 5 31 7).err = .none ∧
    (loaded 5 31 7).val = some 5 ∧
    streamPos (loaded 5 31 7) + (1 : BitVec 6).toNat ≤ streamRoom (loaded 5 31 7) :=
  ⟨inv_of_holds (by decide +kernel), by decide, by decide, by decide⟩

theorem witness_AppendRefusals : 1 ≤ (1 : BitVec 6).toNat ∧ (32 : BitVec 6).toNat ≤ 32 ∧ ready.err = .none ∧
    ready.val = none ∧ (0 : BitVec 6).toNat = 0 ∧ 32 < (33 : BitVec 6).toNat := by decide

/-- The last data byte takes the terminator; one bit in it, and there is no place. -/
theorem witness_TermWritesTheTerminator : faulted.err ≠ .none ∧ (loaded 5 31 0).Inv ∧ (loaded 5 31 0).err = .none ∧
    (loaded 5 31 0).bitOffset = 0 ∧ (loaded 5 31 0).byteIndex < (loaded 5 31 0).bufSize ∧
    (loaded 5 31 1).Inv ∧ (loaded 5 31 1).err = .none ∧ (loaded 5 31 1).bitOffset ≠ 0 ∧
    (loaded 5 31 1).bufSize ≤ skip ((loaded 5 31 1).byteIndex + 1) :=
  ⟨by decide, inv_of_holds (by decide +kernel), by decide, by decide, by decide,
    inv_of_holds (by decide +kernel), by decide, by decide, by decide⟩

theorem witness_AppendStoresOnlyItsBytes : ∃ t u, (loaded 5 31 7).Inv ∧ exec (.append 1) (loaded 5 31 7) = .next t ∧
    (loaded 5 28 1).Inv ∧ exec (.append 32) (loaded 5 28 1) = .next u :=
  have ⟨t, ht⟩ := next_of_after (o := exec (.append 1) (loaded 5 31 7)) (by decide +kernel)
  have ⟨u, hu⟩ := next_of_after (o := exec (.append 32) (loaded 5 28 1)) (by decide +kernel)
  ⟨t, u, inv_of_holds (by decide +kernel), ht, inv_of_holds (by decide +kernel), hu⟩

theorem witness_PackerNeverWritesReservedBytes : ∃ t u, (loaded 5 31 0).Inv ∧ exec .term (loaded 5 31 0) = .next t ∧
    (loaded 5 28 1).Inv ∧ exec (.append 32) (loaded 5 28 1) = .next u :=
  have ⟨t, ht⟩ := next_of_after (o := exec .term (loaded 5 31 0)) (by decide +kernel)
  have ⟨u, hu⟩ := next_of_after (o := exec (.append 32) (loaded 5 28 1)) (by decide +kernel)
  ⟨t, u, inv_of_holds (by decide +kernel), ht, inv_of_holds (by decide +kernel), hu⟩

theorem witness_TerminatorFitsByCapacity : (loaded 5 31 1).Inv ∧ (loaded 5 31 1).err = .none :=
  ⟨inv_of_holds (by decide +kernel), by decide⟩

/-- The cursor in the block that does not exist: the highest block is the last (R151). -/
theorem witness_CsumWritesTheChecksums : faulted.err ≠ .none ∧ (loaded 5 33 0).Inv ∧ (loaded 5 33 0).err = .none ∧
    0 = min ((loaded 5 33 0).byteIndex / 32) ((loaded 5 33 0).params.nblk - 1) :=
  ⟨by decide, inv_of_holds (by decide +kernel), by decide, by decide⟩

theorem witness_ChecksummedBlocksSumToZero : ∃ t, (loaded 5 33 0).Inv ∧ (loaded 5 33 0).err = .none ∧
    0 = min ((loaded 5 33 0).byteIndex / 32) ((loaded 5 33 0).params.nblk - 1) ∧ exec .csum (loaded 5 33 0) = .next t :=
  have ⟨t, h⟩ := next_of_after (o := exec .csum (loaded 5 33 0)) (by decide +kernel)
  ⟨t, inv_of_holds (by decide +kernel), by decide, by decide, h⟩

theorem witness_CsumIsIdempotent : ∃ t, ready.Inv ∧ exec .csum ready = .next t :=
  have ⟨t, h⟩ := next_of_after (o := exec .csum ready) (by decide +kernel)
  ⟨t, ready_inv, h⟩

/-- Fields of 1, 32 and 7 bits; and a full pass: 240 bits and the terminator (R132). -/
theorem witness_PassReadsBackEveryField : ready.Inv ∧ ready.err = .none ∧
    (streamPos ready + fieldBits [(5, 1), (6, 32), (7, 7)] + 7) / 8 + 1 ≤ 31 * ready.params.nblk ∧
    (streamPos ready + fieldBits (List.replicate 15 (7, 16)) + 7) / 8 + 1 = 31 * ready.params.nblk :=
  ⟨ready_inv, by decide, by decide, by decide⟩

theorem witness_RestOfAFaultedPassIsInert :
    (∀ i ∈ [Instr.append 8, .term, .csum], i.wf = true ∧ i ≠ .fill) ∧ faulted.err ≠ .none := by decide

theorem witness_ConvertedAheadOfPacking : ∃ t, isConvert (.cvtChr5 [0x41] []) = true ∧ ready.err = .none ∧
    exec (.cvtChr5 [0x41] []) ready = .next t ∧ t.err = .none := ⟨_, rfl, rfl, rfl, rfl⟩

theorem witness_HexRendersEachByte : 1 < ([0xFC, 0x05] : List Byte).length := by decide

theorem witness_ReadPortGivesTheBuffer : ready.err = .none ∧ faulted.err ≠ .none ∧ 31 < ready.bufSize := by decide

end Sys2Proof.Tests
end

namespace Sys2Proof.Machine

/-! ## What the packer can do from any state, the invariant or not (R125 to R127, R129) -/

/-- What packing from `s` on can come to: only `BUF` and `CUR` have moved, or the buffer has overflowed as well, or a
byte outside the buffer was read. -/
inductive PackerFlow (s : State) : Flow → Prop where
  | go (buf : Memory) (cur : Cursor) : PackerFlow s (.go { s with buf := buf, cur := cur })
  | overflow (buf : Memory) (cur : Cursor) :
      PackerFlow s (.ended (.next { s with buf := buf, cur := cur, err := .bufferOverflow }))
  | outside : PackerFlow s (.ended (.fault .readOutsideBuffer))

section
variable {s t : State} {f : Flow}

/-- Packing may begin with any move of `BUF` and `CUR`. -/
theorem PackerFlow.after (buf : Memory) (cur : Cursor) (h : PackerFlow { s with buf := buf, cur := cur } f) :
    PackerFlow s f := by
  cases h with
  | go buf cur => exact .go buf cur
  | overflow buf cur => exact .overflow buf cur
  | outside => exact .outside

theorem PackerFlow.andThen {g : State → Flow} (h : PackerFlow s f) (hg : ∀ t, PackerFlow t (g t)) :
    PackerFlow s (f.andThen g) := by
  cases h with
  | go buf cur => exact (hg _).after buf cur
  | overflow buf cur => exact .overflow buf cur
  | outside => exact .outside

/-- A command that ends in a next state ran its last statement, or overflowed before it. -/
theorem PackerFlow.finish_next {g : State → Host.Outcome State Fault Refusal} (h : PackerFlow s f)
    (e : f.finish g = .next t) :
    (∃ buf cur, g { s with buf := buf, cur := cur } = .next t) ∨
      ∃ buf cur, t = { s with buf := buf, cur := cur, err := .bufferOverflow } := by
  cases h with
  | go buf cur => exact .inl ⟨buf, cur, e⟩
  | overflow buf cur => exact .inr ⟨buf, cur, (Host.Outcome.next.inj e).symm⟩
  | outside => exact nomatch e

end

theorem memWrite_flow (i b : Nat) (s : State) : PackerFlow s (memWrite i b s) := by
  unfold memWrite
  split_ifs
  · exact .overflow s.buf s.cur
  · exact .go _ s.cur

theorem memRead_flow (i : Nat) {s : State} {use : Nat → Flow} (h : ∀ n, PackerFlow s (use n)) :
    PackerFlow s (memRead i s use) := by
  unfold memRead
  split_ifs
  · exact h _
  · exact .outside

theorem fillTo_flow (n : Nat) (s : State) : PackerFlow s (.go (fillTo n s)) := by
  unfold fillTo
  split_ifs <;> exact .go s.buf _

theorem putEmpty_flow (v L : Nat) (s : State) : PackerFlow s (putEmpty v L s) :=
  (memWrite_flow _ _ s).andThen (fillTo_flow L)

theorem putFits_flow (v L old : Nat) (s : State) : PackerFlow s (putFits v L old s) :=
  (memWrite_flow _ _ s).andThen (fillTo_flow (s.bitOffset + L))

theorem putSpans_flow (v L old : Nat) (s : State) : PackerFlow s (putSpans v L old s) :=
  (memWrite_flow _ _ s).andThen fun t =>
    .after t.buf (advance t).cur ((memWrite_flow _ _ (advance t)).andThen fun u => .go u.buf _)

theorem putChunk_flow (v L : Nat) (s : State) : PackerFlow s (putChunk v L s) := by
  refine .after s.buf (s.moveTo (skip s.byteIndex) s.bitOffset).cur ?_
  unfold putChunk
  dsimp only
  split_ifs
  · exact putEmpty_flow v L _
  · exact memRead_flow _ fun byte => putFits_flow v L _ _
  · exact memRead_flow _ fun byte => putSpans_flow v L _ _

theorem putLanes_flow (x len k : Nat) (s : State) : PackerFlow s (putLanes x len k s) := by
  induction k generalizing s with
  | zero => exact .go s.buf s.cur
  | succ k ih =>
    refine PackerFlow.andThen ?_ ih
    split_ifs
    · exact putChunk_flow _ _ s
    · exact .go s.buf s.cur

/-! ## What no command touches -/

/-- `t` has the parameters of `s`, its host's acts and its number of resets; everything else may differ. -/
def SameSetting (s t : State) : Prop := t.params = s.params ∧ t.host = s.host ∧ t.resets = s.resets

theorem SameSetting.refl (s : State) : SameSetting s s := ⟨rfl, rfl, rfl⟩

section
variable {s t : State}

theorem unlessFaulted_next {body : State → Host.Outcome State Fault Refusal} (h : unlessFaulted s body = .next t) :
    (s.err = .none ∧ body s = .next t) ∨ (s.err ≠ .none ∧ t = s) := by
  rcases unlessFaulted_cases s body with ⟨hr, e⟩ | ⟨hf, e⟩
  · exact .inl ⟨hr, e.symm.trans h⟩
  · exact .inr ⟨hf, Host.Outcome.next.inj (h.symm.trans e)⟩

/-- A command that waits for `ERR = 0` keeps the setting if its statements do. -/
theorem unlessFaulted_setting {body : State → Host.Outcome State Fault Refusal} (h : unlessFaulted s body = .next t)
    (hb : body s = .next t → SameSetting s t) : SameSetting s t := by
  rcases unlessFaulted_next h with ⟨-, e⟩ | ⟨-, rfl⟩
  · exact hb e
  · exact .refl _

theorem execCrst_setting (h : execCrst s = .next t) : SameSetting s t :=
  unlessFaulted_setting h fun e => by
    cases e
    exact ⟨rfl, rfl, rfl⟩

theorem execLdv_setting {imm : Word} (h : execLdv imm s = .next t) : SameSetting s t :=
  unlessFaulted_setting h fun e => by
    cases e
    exact ⟨rfl, rfl, rfl⟩

/-- Every conversion begins with R188's line. -/
theorem exec_convert_faulted {i : Instr} (hi : isConvert i = true) (h : s.err ≠ .none) : exec i s = .next s := by
  cases i with
  | fill | crst | ldv | append | term | csum => exact nomatch hi
  | cvtUnint | cvtChr5 | cvtDate | cvtConres | cvtConrelres | cvtSingle | cvtUnrec => exact if_neg h

theorem exec_convert_setting {i : Instr} (hi : isConvert i = true) (h : exec i s = .next t) : SameSetting s t := by
  by_cases hr : s.err = .none
  · rcases convert_cases hi hr with ⟨v, d, e, -⟩ | ⟨err, -, e⟩ | ⟨e, -⟩
    · cases h.symm.trans e
      exact ⟨rfl, rfl, rfl⟩
    · cases h.symm.trans e
      exact ⟨rfl, rfl, rfl⟩
    · exact nomatch h.symm.trans e
  · cases h.symm.trans (exec_convert_faulted hi hr)
    exact .refl s

theorem appendValue_setting {len : BitVec 6} {v : Word} (h : appendValue len v s = .next t) : SameSetting s t := by
  rcases (putLanes_flow _ _ _ s).finish_next h with ⟨buf, cur, e⟩ | ⟨buf, cur, rfl⟩
  · cases e
    exact ⟨rfl, rfl, rfl⟩
  · exact ⟨rfl, rfl, rfl⟩

theorem execAppend_setting {len : BitVec 6} (h : execAppend len s = .next t) : SameSetting s t := by
  unfold execAppend at h
  split_ifs at h
  refine unlessFaulted_setting h fun e => ?_
  cases hv : s.val with
  | none => simp [hv] at e
  | some v => exact appendValue_setting (by simpa [hv] using e)

theorem alignForTerm_flow (s : State) : PackerFlow s (.go (alignForTerm s)) := by
  unfold alignForTerm
  split_ifs
  · exact .go s.buf s.cur
  · exact .go s.buf _

theorem execTerm_setting (h : execTerm s = .next t) : SameSetting s t :=
  unlessFaulted_setting h fun e => by
    have hf := (alignForTerm_flow s).andThen (putChunk_flow Config.termByte 8)
    rcases hf.finish_next e with ⟨buf, cur, e⟩ | ⟨buf, cur, rfl⟩
    · cases e
      exact ⟨rfl, rfl, rfl⟩
    · exact ⟨rfl, rfl, rfl⟩

theorem execCsum_setting (h : execCsum s = .next t) : SameSetting s t :=
  unlessFaulted_setting h fun e => by
    have ht : checksumPass (highBlock s + 1) s = t := Host.Outcome.next.inj e
    rw [← ht, checksumPass_rest]
    exact ⟨rfl, rfl, rfl⟩

/-- R20: no command changes the parameters, what the host does next, or the count of resets. -/
theorem exec_setting {i : Instr} (h : exec i s = .next t) : SameSetting s t := by
  cases i with
  | fill =>
    cases h
    exact ⟨rfl, rfl, rfl⟩
  | crst => exact execCrst_setting h
  | ldv imm => exact execLdv_setting h
  | append len => exact execAppend_setting h
  | term => exact execTerm_setting h
  | csum => exact execCsum_setting h
  | cvtUnint | cvtChr5 | cvtDate | cvtConres | cvtConrelres | cvtSingle | cvtUnrec => exact exec_convert_setting rfl h

end

/-! ## The step -/

theorem fetch_params (s : State) : (fetch s).2.params = s.params := by rw [fetch_state]

/-- Settles O7: taking the next command, a reset and every command keep the parameters. -/
theorem stepKeepsParameters : Obligations.StepKeepsParameters := by
  intro s t h
  rcases step_cases s with ⟨-, e⟩ | ⟨-, e⟩ | ⟨i, -, e⟩ | ⟨why, -, e⟩
  · cases h.symm.trans e
    exact fetch_params s
  · cases h.symm.trans e
    exact fetch_params s
  · obtain ⟨hp, -, -⟩ := exec_setting (e.symm.trans h)
    exact hp.trans (fetch_params s)
  · exact nomatch h.symm.trans e

end Sys2Proof.Machine

namespace Sys2Proof.Machine

/-! ## The reset state and the status port (R22, R24) -/

/-- Settles O1: R24's values stand in `State.reset` as they are. -/
theorem resetRegisterValues : Obligations.ResetRegisterValues :=
  ⟨rfl, rfl, rfl, rfl, rfl, fun _ => rfl⟩

/-- The invariant with the cursor at the first data byte (R24, R123) asks for the parameters and the buffer only. -/
theorem State.Inv.of_first {s : State} (hc : s.cur = { byteIndex := 1, bitOffset := 0 }) (hp : s.params.wf)
    (hw : Memory.wf s.buf) (hi : ∀ c ∈ s.buf, c.1 < s.bufSize) : s.Inv := by
  have h1 : s.byteIndex = 1 := by simp [State.byteIndex, hc]
  have h0 : s.bitOffset = 0 := by simp [State.bitOffset, hc]
  refine ⟨hp, hw, hi, ?_, ?_, fun h => absurd h0 h⟩
  · rw [h1]
    decide
  · omega

/-- At a byte boundary no byte is partly filled. -/
theorem State.FreeBitsClear.of_boundary {s : State} (h : s.bitOffset = 0) : s.FreeBitsClear :=
  fun _ h0 => absurd h h0

/-- Settles O2: the cursor is at the first data byte and the buffer lists nothing. -/
theorem resetMeetsInv : Obligations.ResetMeetsInv :=
  ⟨.of_first rfl ⟨by decide, by decide, le_refl 0⟩ .nil (by simp [State.reset]), .of_boundary rfl⟩

theorem hardReset_inv {s : State} (hp : s.params.wf) : (hardReset s).Inv :=
  .of_first rfl hp .nil (by simp)

/-- Settles O56: a register of at most 16 bits reads as the same number in 32 bits. -/
theorem statusPortReadsTheRegisters : Obligations.StatusPortReadsTheRegisters := by
  intro s
  have wide {n : Nat} (h : n ≤ 32) (x : BitVec n) : (some (x.zeroExtend 32)).map BitVec.toNat = some x.toNat :=
    congrArg some (BitVec.toNat_setWidth_of_le h)
  refine ⟨rfl, wide (by decide) _, wide (by decide) _, wide (by decide) _, (wide (by decide) s.err.code).trans ?_⟩
  cases s.err <;> rfl

/-! ## The ways a step and its commands answer a next state -/

section
variable {s t : State}

/-- A step that answers a next state waited, took a reset, or ran a command, once the host's acts had moved. -/
theorem step_next (h : step s = .next t) :
    ∃ acts, ((fetch s).1 = .nothing ∧ t = { s with host := acts }) ∨
      ((fetch s).1 = .hostReset ∧ t = hardReset { s with host := acts }) ∨
      ∃ i, (fetch s).1 = .command i ∧ exec i { s with host := acts } = .next t := by
  refine ⟨(fetch s).2.host, ?_⟩
  rw [← fetch_state]
  rcases step_cases s with ⟨hf, e⟩ | ⟨hf, e⟩ | ⟨i, hf, e⟩ | ⟨why, -, e⟩
  · exact .inl ⟨hf, Host.Outcome.next.inj (h.symm.trans e)⟩
  · exact .inr (.inl ⟨hf, Host.Outcome.next.inj (h.symm.trans e)⟩)
  · exact .inr (.inr ⟨i, hf, e.symm.trans h⟩)
  · exact nomatch h.symm.trans e

/-- A conversion that answers a next state wrote `VAL`, recorded an error, or was inert. -/
theorem exec_convert_next {i : Instr} (hi : isConvert i = true) (h : exec i s = .next t) :
    (∃ v d, t = { s with val := some v, draws := d } ∧
      ((∀ raw rng, i ≠ .cvtConrelres raw rng) → d = s.draws)) ∨
      (∃ e, e ≠ Err.none ∧ t = { s with err := e }) ∨ t = s := by
  by_cases hr : s.err = .none
  · rcases convert_cases hi hr with ⟨v, d, e, hd⟩ | ⟨err, he, e⟩ | ⟨e, -⟩
    · exact .inl ⟨v, d, Host.Outcome.next.inj (h.symm.trans e), hd⟩
    · exact .inr (.inl ⟨err, he, Host.Outcome.next.inj (h.symm.trans e)⟩)
    · exact nomatch h.symm.trans e
  · exact .inr (.inr (Host.Outcome.next.inj (h.symm.trans (exec_convert_faulted hi hr))))

/-- A command whose statements lead to `u` answers `u`, or was inert. -/
theorem unlessFaulted_to {u : State} {body : State → Host.Outcome State Fault Refusal}
    (h : unlessFaulted s body = .next t) (hb : body s = .next u) : t = u ∨ t = s := by
  rcases unlessFaulted_next h with ⟨-, e⟩ | ⟨-, e⟩
  · exact .inl (Host.Outcome.next.inj (e.symm.trans hb))
  · exact .inr e

theorem execCrst_next (h : execCrst s = .next t) : t = { s.moveTo 1 0 with fidx := 0 } ∨ t = s :=
  unlessFaulted_to h rfl

theorem execLdv_next {imm : Word} (h : execLdv imm s = .next t) : t = { s with val := some imm } ∨ t = s :=
  unlessFaulted_to h rfl

/-- `APPEND` that answers a next state appended the value in `VAL` by a legal length, or was inert (R127). -/
theorem execAppend_next {len : BitVec 6} (h : execAppend len s = .next t) :
    (∃ v, 1 ≤ len.toNat ∧ len.toNat ≤ 32 ∧ appendValue len v s = .next t) ∨ t = s := by
  unfold execAppend at h
  split_ifs at h with hl
  obtain ⟨h1, h2⟩ := of_decide_eq_true hl
  rcases unlessFaulted_next h with ⟨-, e⟩ | ⟨-, e⟩
  · cases hv : s.val with
    | none => simp [hv] at e
    | some v => exact .inl ⟨v, h1, h2, by simpa [hv] using e⟩
  · exact .inr e

theorem execCsum_next (h : execCsum s = .next t) : t = checksumPass (highBlock s + 1) s ∨ t = s :=
  unlessFaulted_to h rfl

/-! ## `VAL` (R11) -/

theorem appendValue_val {len : BitVec 6} {v : Word} (h : appendValue len v s = .next t) : t.val = s.val := by
  rcases (putLanes_flow _ _ _ s).finish_next h with ⟨buf, cur, e⟩ | ⟨buf, cur, rfl⟩
  · cases e
    rfl
  · rfl

theorem execTerm_val (h : execTerm s = .next t) : t.val = s.val := by
  rcases unlessFaulted_next h with ⟨-, e⟩ | ⟨-, rfl⟩
  · have hf := (alignForTerm_flow s).andThen (putChunk_flow Config.termByte 8)
    rcases hf.finish_next e with ⟨buf, cur, e⟩ | ⟨buf, cur, rfl⟩
    · cases e
      rfl
    · rfl
  · rfl

/-- A command leaves `VAL` or writes a value to it. -/
theorem exec_val {i : Instr} (h : exec i s = .next t) : t.val = s.val ∨ ∃ v, t.val = some v := by
  cases i with
  | fill =>
    cases h
    exact .inl rfl
  | crst => rcases execCrst_next h with rfl | rfl <;> exact .inl rfl
  | ldv imm =>
    rcases execLdv_next h with rfl | rfl
    · exact .inr ⟨imm, rfl⟩
    · exact .inl rfl
  | append len =>
    rcases execAppend_next h with ⟨v, -, -, e⟩ | rfl
    · exact .inl (appendValue_val e)
    · exact .inl rfl
  | term => exact .inl (execTerm_val h)
  | csum =>
    rcases execCsum_next h with rfl | rfl
    · rw [checksumPass_rest]
      exact .inl rfl
    · exact .inl rfl
  | cvtUnint | cvtChr5 | cvtDate | cvtConres | cvtConrelres | cvtSingle | cvtUnrec =>
    rcases exec_convert_next rfl h with ⟨v, d, rfl, -⟩ | ⟨e, -, rfl⟩ | rfl
    · exact .inr ⟨v, rfl⟩
    · exact .inl rfl
    · exact .inl rfl

end

/-- Settles O12: waiting keeps `VAL`, and a command keeps it or writes a value. -/
theorem valHoldsAValueUntilReset : Obligations.ValHoldsAValueUntilReset := by
  intro s t h hv hn
  obtain ⟨acts, ⟨-, rfl⟩ | ⟨hf, -⟩ | ⟨i, -, e⟩⟩ := step_next h
  · exact hv
  · exact absurd hf hn
  · rcases exec_val e with e | ⟨v, e⟩ <;> rw [e]
    · exact hv
    · exact Option.some_ne_none v

/-- Settles O39: a conversion writes `VAL` or `ERR`, `CRST` the cursor and `FIDX`, `LDV` `VAL`; none writes `BUF`. -/
theorem registerCommandsFrame : Obligations.RegisterCommandsFrame := by
  rintro i s t (hi | rfl | ⟨imm, rfl⟩) h
  · have hc : i ≠ .crst := by
      rintro rfl
      cases hi
    have hw : isConvert i ≠ false := by simp [hi]
    rcases exec_convert_next hi h with ⟨v, d, rfl, hd⟩ | ⟨e, -, rfl⟩ | rfl
    · exact ⟨fun _ => rfl, rfl, rfl, rfl, fun _ => ⟨rfl, rfl⟩, (absurd · hc), (absurd · hw), hd⟩
    · exact ⟨fun _ => rfl, rfl, rfl, rfl, fun _ => ⟨rfl, rfl⟩, fun _ => rfl, (absurd · hw), fun _ => rfl⟩
    · exact ⟨fun _ => rfl, rfl, rfl, rfl, fun _ => ⟨rfl, rfl⟩, fun _ => rfl, fun _ => rfl, fun _ => rfl⟩
  · rcases execCrst_next h with rfl | rfl <;>
      exact ⟨fun _ => rfl, rfl, rfl, rfl, (absurd rfl ·), fun _ => rfl, fun _ => rfl, fun _ => rfl⟩
  · rcases execLdv_next h with rfl | rfl <;>
      exact ⟨fun _ => rfl, rfl, rfl, rfl, fun _ => ⟨rfl, rfl⟩, nofun, fun _ => rfl, fun _ => rfl⟩

/-! ## What a command can do from a state of the invariant -/

/-- What the next state of a command can be, from a state of the invariant: registers written, the pattern in `BUF`
(R161), a pass begun (R123), bits appended at the cursor or, by `TERM`, at the next byte boundary (R127, R129), or
checksums (R151). Of the command `i` it says only that no other than `FILL` writes the pattern. -/
inductive Effect (i : Instr) (s : State) : State → Prop where
  | registers (val : Option Word) (err : Err) (draws : Nat) (he : err = .none → s.err = .none) :
      Effect i s { s with val := val, err := err, draws := draws }
  | refilled (hi : i = .fill) : Effect i s (clearErr (filled s))
  | restarted : Effect i s { s.moveTo 1 0 with fidx := 0 }
  | packed {u w : State} {L v : Nat} (hu : u.Inv) (hs : u = { s with cur := u.cur })
      (hr : streamPos u + L ≤ streamRoom u) (hw : Packed u L v w) (fidx : Index) (err : Err)
      (hL : err = .none → 0 < L) : Effect i s { w with fidx := fidx, err := err }
  | summed {n : Nat} (hn : n ≤ s.params.nblk) : Effect i s (checksumPass n s)

section
variable {s t : State}

theorem Effect.refl (i : Instr) (s : State) : Effect i s s := .registers s.val s.err s.draws id

theorem convert_effect {i : Instr} (hi : isConvert i = true) (h : exec i s = .next t) : Effect i s t := by
  rcases exec_convert_next hi h with ⟨v, d, rfl, -⟩ | ⟨e, he, rfl⟩ | rfl
  · exact .registers (some v) s.err d id
  · exact .registers s.val e s.draws (absurd · he)
  · exact .refl _ t

variable (hs : s.Inv)
include hs

theorem appendValue_effect {len : BitVec 6} {v : Word} (h1 : 1 ≤ len.toNat) (h2 : len.toNat ≤ 32)
    (h : appendValue len v s = .next t) : Effect (.append len) s t := by
  rcases appendValue_cases v hs h2 with ⟨hr, w, hw, e⟩ | ⟨-, w, hw, e⟩ <;> cases h.symm.trans e
  · exact .packed hs rfl hr hw (countField w).fidx w.err fun _ => h1
  · have := hs.streamPos_le
    exact .packed hs rfl (by omega) hw w.fidx .bufferOverflow nofun

theorem execTerm_effect (h : execTerm s = .next t) : Effect .term s t := by
  obtain ⟨hu, -, -, hc⟩ := alignForTerm_spec hs
  rcases unlessFaulted_next h with ⟨-, h⟩ | ⟨-, rfl⟩
  · have hp := putChunk_packs hu (v := Config.termByte) (show 1 ≤ 8 by decide) (Nat.le_refl 8) (by decide)
    rcases hp with ⟨hr, w, hw, e⟩ | ⟨-, w, hw, e⟩ <;> rw [e] at h <;> cases h
    · exact .packed hu hc hr hw t.fidx t.err fun _ => by decide
    · have := hu.streamPos_le
      exact .packed hu hc (by omega) hw w.fidx .bufferOverflow nofun
  · exact .refl _ t

theorem exec_effect {i : Instr} (h : exec i s = .next t) : Effect i s t := by
  cases i with
  | fill =>
    cases h
    exact .refilled rfl
  | crst =>
    rcases execCrst_next h with rfl | rfl
    · exact .restarted
    · exact .refl _ t
  | ldv imm =>
    rcases execLdv_next h with rfl | rfl
    · exact .registers (some imm) s.err s.draws id
    · exact .refl _ t
  | append len =>
    rcases execAppend_next h with ⟨v, h1, h2, e⟩ | rfl
    · exact appendValue_effect hs h1 h2 e
    · exact .refl _ t
  | term => exact execTerm_effect hs h
  | csum =>
    rcases execCsum_next h with rfl | rfl
    · obtain ⟨h1, -, -⟩ := hs.params
      exact .summed (by unfold highBlock; omega)
    · exact .refl _ t
  | cvtUnint | cvtChr5 | cvtDate | cvtConres | cvtConrelres | cvtSingle | cvtUnrec => exact convert_effect rfl h

end

/-! ## The invariant of R16 -/

/-- The pass over the blocks lists reserved bytes of those blocks and what was listed before. -/
theorem checksumPass_inside {s : State} {m n : Nat} (h : ∀ c ∈ s.buf, c.1 < 32 * m) (hn : n ≤ m) :
    ∀ c ∈ (checksumPass n s).buf, c.1 < 32 * m := by
  induction n with
  | zero => exact h
  | succ n ih =>
    intro c hc
    rw [checksumPass_succ] at hc
    rcases Memory.mem_put hc with rfl | hc
    · simp only [Config.block]
      omega
    · exact ih (by omega) c hc

theorem checksumPass_inv {s : State} {n : Nat} (hs : s.Inv) (hn : n ≤ s.params.nblk) : (checksumPass n s).Inv := by
  rw [checksumPass_rest]
  exact ⟨hs.params, checksumPass_wf n hs.canonical, checksumPass_inside hs.inside hn, hs.notReserved, hs.bounded,
    hs.partlyFilled⟩

theorem filled_inv {s : State} (hs : s.Inv) : (clearErr (filled s)).Inv := by
  refine ⟨hs.params, Memory.table_wf _ _, fun c hc => ?_, hs.notReserved, hs.bounded, hs.partlyFilled⟩
  obtain ⟨i, hi, rfl⟩ := List.mem_map.mp hc
  exact List.mem_range.mp hi

/-- Every command keeps the invariant. -/
theorem Effect.inv {i : Instr} {s t : State} (h : Effect i s t) (hs : s.Inv) : t.Inv := by
  cases h with
  | registers => exact ⟨hs.params, hs.canonical, hs.inside, hs.notReserved, hs.bounded, hs.partlyFilled⟩
  | refilled => exact filled_inv hs
  | restarted => exact .of_first rfl hs.params hs.canonical hs.inside
  | packed hu _ hr hw =>
    have hi := hw.inv hu hr
    exact ⟨hi.params, hi.canonical, hi.inside, hi.notReserved, hi.bounded, hi.partlyFilled⟩
  | summed hn => exact checksumPass_inv hs hn

/-- Settles O3: waiting and a reset keep the invariant, and so does everything a command can do. -/
theorem stepKeepsInv : Obligations.StepKeepsInv := by
  intro s t hs h
  obtain ⟨acts, ⟨-, rfl⟩ | ⟨-, rfl⟩ | ⟨i, -, e⟩⟩ := step_next h
  · exact hs.withHost acts
  · exact hardReset_inv hs.params
  · exact (exec_effect (hs.withHost acts) e).inv (hs.withHost acts)

/-! ## The bits below the cursor (R16 (c), the second half) -/

/-- Appended bits end at the cursor, and the byte they end in holds zeros below it (R33). -/
theorem Packed.freeBits {s t : State} {L v : Nat} (h : Packed s L v t) (hL : 0 < L) (h0 : t.bitOffset ≠ 0) {j : Nat}
    (hj : j < 8 - t.bitOffset) : (t.byte t.byteIndex).getLsbD j = false := by
  have hm : t.byteIndex % 32 ≠ 0 := h.byteIndex ▸ dataIndex_mod _
  have hp := h.pos
  rw [streamPos_eq] at hp
  rw [← streamBit_here hm j (by omega), h.bits (by omega) (.inr hL)]
  unfold packedBit
  rw [if_neg (by omega), if_neg (by omega)]

theorem filled_byte {s : State} {i : Nat} (h : i < s.bufSize) : (filled s).byte i = patAt s.params.initPat i := by
  simp [State.byte, filled, Memory.get?_table, h]

/-- `CSUM` leaves the cursor's byte, which is a data byte, and every register. -/
theorem checksumPass_freeBitsClear {s : State} (n : Nat) (hs : s.Inv) (hf : s.FreeBitsClear) :
    (checksumPass n s).FreeBitsClear := by
  have hm : s.byteIndex % 32 ≠ 0 := hs.notReserved
  have hb : (checksumPass n s).byte s.byteIndex = s.byte s.byteIndex := by
    rw [checksumPass_byte, if_neg fun h => hm h.1]
  have hr : (checksumPass n s).err = s.err := by rw [checksumPass_rest]
  have hc : (checksumPass n s).cur = s.cur := by rw [checksumPass_rest]
  unfold State.FreeBitsClear State.bitOffset State.byteIndex at hf ⊢
  rw [hr, hc]
  exact fun h h0 j hj => (congrArg (·.getLsbD j) hb).trans (hf h h0 j hj)

/-- Every command but `FILL` keeps the bits below the cursor 0, and `FILL` does where the pattern's are. -/
theorem Effect.freeBitsClear {i : Instr} {s t : State} (h : Effect i s t) (hs : s.Inv) (hf : s.FreeBitsClear)
    (hfill : i = .fill → s.bitOffset ≠ 0 →
      ∀ j < 8 - s.bitOffset, (patAt s.params.initPat s.byteIndex).getLsbD j = false) : t.FreeBitsClear := by
  cases h with
  | registers _ _ _ he => exact fun hr => hf (he hr)
  | refilled hi =>
    intro _ h0 j hj
    exact (congrArg (·.getLsbD j) (filled_byte (hs.partlyFilled h0))).trans (hfill hi h0 j hj)
  | restarted => exact .of_boundary rfl
  | packed _ _ _ hw _ _ hL => exact fun hr h0 j hj => hw.freeBits (hL hr) h0 hj
  | summed => exact checksumPass_freeBitsClear _ hs hf

/-- R197: `FILL` and then `CRST` run from every state, and the pass begins at a byte boundary. -/
theorem runAll_fill_crst (s : State) :
    runAll [.fill, .crst] s = .next { (clearErr (filled s)).moveTo 1 0 with fidx := 0 } := rfl

/-- Settles O59: what was appended ends in zeros, and every other command leaves the cursor's byte or moves the cursor
to a byte boundary; `FILL` puts the pattern there. -/
theorem stepKeepsFreeBitsClear : Obligations.StepKeepsFreeBitsClear := by
  refine ⟨fun s hs => ?_, fun s t hs hf h hfill => ?_⟩
  · exact ⟨_, runAll_fill_crst s, (Effect.restarted (i := .crst)).inv (filled_inv hs), .of_boundary rfl⟩
  · obtain ⟨acts, ⟨-, rfl⟩ | ⟨-, rfl⟩ | ⟨i, hc, e⟩⟩ := step_next h
    · exact hf
    · exact .of_boundary rfl
    · exact (exec_effect (hs.withHost acts) e).freeBitsClear (hs.withHost acts) hf fun hi => hfill (hi ▸ hc)

end Sys2Proof.Machine

namespace Sys2Proof.Machine

/-! ## The data bytes and the guarded write (R34, R37) -/

/-- Settles O40: `idx` and the numbering of the data bytes undo each other, and the skip goes from one to the next. -/
theorem dataBytesAreNumberedByIdx : Obligations.DataBytesAreNumberedByIdx :=
  ⟨fun k => ⟨dataIndex_mod k, skip_succ_dataIndex k⟩, fun _ => dataIndex_dataNumber, rfl⟩

/-- Settles O41: the write beyond the buffer raises the error only, and the write inside it is `setByte`. -/
theorem memWriteIsGuarded : Obligations.MemWriteIsGuarded := by
  refine fun s i b => ⟨memWrite_ge, fun h => ⟨_, memWrite_lt h, rfl, ?_, fun a ha => ?_⟩⟩
  · have hb : (b &&& 0xFF) % 256 = b % 256 := by
      rw [Nat.and_two_pow_sub_one_eq_mod b 8]
      exact Nat.mod_mod b 256
    rw [byte_setByte, if_pos rfl, BitVec.toNat_ofNat]
    exact hb
  · rw [byte_setByte, if_neg ha]

/-! ## The bytes that `APPEND` stores to (R39) -/

/-- The bytes that a packing stores to are the consecutive data bytes from the cursor's on. -/
theorem nthStored_eq {s : State} (hm : s.byteIndex % 32 ≠ 0) (n : Nat) :
    nthStored s n = dataIndex (dataNumber s.byteIndex + n) := by
  induction n with
  | zero => exact (skip_of_mod_ne hm).trans (dataIndex_dataNumber hm).symm
  | succ n ih =>
    calc skip (nthStored s n + 1) = skip (dataIndex (dataNumber s.byteIndex + n) + 1) := by rw [ih]
      _ = dataIndex (dataNumber s.byteIndex + n + 1) := skip_succ_dataIndex _

/-- Appending `L` bits writes the bytes `nthStored` names, `ceil((o + L) / 8)` of them. -/
theorem packedAt_nthStored {s : State} {L a : Nat} (hm : s.byteIndex % 32 ≠ 0) (h : packedAt s L a) :
    ∃ n < (s.bitOffset + L + 7) / 8, a = nthStored s n := by
  obtain ⟨-, ha, hlo, hhi⟩ := h
  have ho := bitOffset_lt s
  rw [streamPos_eq] at hlo hhi
  refine ⟨dataNumber a - dataNumber s.byteIndex, by omega, ?_⟩
  rw [nthStored_eq hm, Nat.add_sub_cancel' (by omega), dataIndex_dataNumber ha]

/-- `APPEND` of a value, whether there is room or not, appends at most `len` bits and then moves `FIDX` or `ERR` only. -/
theorem appendValue_next {s t : State} {len : BitVec 6} {v : Word} (hs : s.Inv) (hl : len.toNat ≤ 32)
    (h : appendValue len v s = .next t) :
    ∃ L x w, L ≤ len.toNat ∧ Packed s L x w ∧ t = { w with fidx := t.fidx, err := t.err } := by
  rcases appendValue_cases v hs hl with ⟨-, w, hw, e⟩ | ⟨hr, w, hw, e⟩ <;> cases h.symm.trans e
  · exact ⟨_, _, w, Nat.le_refl _, hw, rfl⟩
  · exact ⟨_, _, w, by omega, hw, rfl⟩

/-- Settles O47: `APPEND` is inert, or appends at most `len` bits, and these stand in the bytes that `nthStored` names. -/
theorem appendStoresOnlyItsBytes : Obligations.AppendStoresOnlyItsBytes := by
  intro s t len hs h
  rcases execAppend_next h with ⟨v, -, hl, e⟩ | rfl
  · obtain ⟨L, x, w, hL, hw, ht⟩ := appendValue_next hs hl e
    have kept {a : Nat} (ha : ∀ n < (s.bitOffset + len.toNat + 7) / 8, a ≠ nthStored s n) : w.byte a = s.byte a := by
      refine hw.byte_kept fun hp => ?_
      obtain ⟨n, hn, hna⟩ := packedAt_nthStored hs.notReserved hp
      exact ha n (by omega) hna
    rw [ht]
    exact ⟨fun _ => kept, hw.val, hw.params, hw.host, hw.draws, hw.resets⟩
  · exact ⟨fun _ _ => rfl, rfl, rfl, rfl, rfl, rfl⟩

/-! ## No fault (R38) -/

section
variable {s : State} {r : Fault}

/-- R188's line raises no fault: one comes from the statements after it. -/
theorem unlessFaulted_fault {body : State → Host.Outcome State Fault Refusal} (h : unlessFaulted s body = .fault r) :
    s.err = .none ∧ body s = .fault r := by
  rcases unlessFaulted_cases s body with ⟨hr, e⟩ | ⟨-, e⟩
  · exact ⟨hr, e.symm.trans h⟩
  · exact nomatch h.symm.trans e

theorem execCrst_ne_fault : execCrst s ≠ .fault r := fun h => nomatch (unlessFaulted_fault h).2

theorem execLdv_ne_fault (imm : Word) : execLdv imm s ≠ .fault r := fun h => nomatch (unlessFaulted_fault h).2

theorem execCsum_ne_fault : execCsum s ≠ .fault r := fun h => nomatch (unlessFaulted_fault h).2

theorem exec_convert_ne_fault {i : Instr} (hi : isConvert i = true) : exec i s ≠ .fault r := by
  by_cases hr : s.err = .none
  · rcases convert_cases hi hr with ⟨v, d, e, -⟩ | ⟨err, -, e⟩ | ⟨e, -⟩ <;> rw [e] <;> exact nofun
  · rw [exec_convert_faulted hi hr]
    exact nofun

theorem execAppend_ne_fault (hs : s.Inv) (len : BitVec 6) : execAppend len s ≠ .fault r := by
  intro h
  unfold execAppend at h
  split_ifs at h with hl
  obtain ⟨-, h2⟩ := of_decide_eq_true hl
  obtain ⟨-, e⟩ := unlessFaulted_fault h
  cases hv : s.val with
  | none => simp [hv] at e
  | some v =>
    have ha : appendValue len v s = .fault r := by simpa [hv] using e
    rcases appendValue_cases v hs h2 with ⟨-, w, -, e⟩ | ⟨-, w, -, e⟩ <;> exact nomatch ha.symm.trans e

theorem execTerm_ne_fault (hs : s.Inv) : execTerm s ≠ .fault r := by
  intro h
  obtain ⟨hr, -⟩ := unlessFaulted_fault h
  rcases execTerm_cases hs hr with ⟨-, e⟩ | ⟨-, e⟩ <;> exact nomatch h.symm.trans e

/-- R38: from the invariant no command reads outside `BUF`. -/
theorem exec_ne_fault (hs : s.Inv) (i : Instr) : exec i s ≠ .fault r := by
  cases i with
  | fill => exact nofun
  | crst => exact execCrst_ne_fault
  | ldv imm => exact execLdv_ne_fault imm
  | csum => exact execCsum_ne_fault
  | append len => exact execAppend_ne_fault hs len
  | term => exact execTerm_ne_fault hs
  | cvtUnint | cvtChr5 | cvtDate | cvtConres | cvtConrelres | cvtSingle | cvtUnrec => exact exec_convert_ne_fault rfl

end

/-- Settles O10: only a command could raise the fault, and taking it from the host keeps the invariant. -/
theorem noStepFaults : Obligations.NoStepFaults := by
  intro s r hs h
  rcases step_cases s with ⟨-, e⟩ | ⟨-, e⟩ | ⟨i, -, e⟩ | ⟨why, -, e⟩
  · exact nomatch h.symm.trans e
  · exact nomatch h.symm.trans e
  · rw [fetch_state] at e
    exact exec_ne_fault (hs.withHost _) i (e.symm.trans h)
  · exact nomatch h.symm.trans e

end Sys2Proof.Machine

namespace Sys2Proof.Machine

/-! ## The opcode map, one row at a time (R51 to R56) -/

/-- The row of `op` is a command of format N (R51). -/
structure FormatN (op : Byte) (i : Instr) : Prop where
  reads : decodeHeader op = decodeN i
  wf : i.wf = true
  writes : encode i = [op, 0]

/-- The row of `op` is a type tag of format S (R54), whose commands `make` builds. -/
structure FormatS (op : Byte) (make : Text → Text → Instr) : Prop where
  reads : decodeHeader op = decodeS make
  wf : ∀ raw rng, (make raw rng).wf = (Text.fits raw && Text.fits rng)
  writes : ∀ raw rng, encode (make raw rng) = encodeS op raw rng

/-- The opcodes of R56. -/
def opcodes : List Byte := [0x01, 0x02, 0x03, 0x10, 0x11, 0x12, 0x13, 0x14, 0x15, 0x16, 0x17, 0x20, 0x21, 0x30]

/-- What the opcode map of R56 has for `op`. Formats I and L have one row each. -/
inductive OpcodeRow (op : Byte) : Prop where
  | formatN {i : Instr} (row : FormatN op i)
  | formatI (row : op = 0x03)
  | formatS {make : Text → Text → Instr} (row : FormatS op make)
  | formatL (row : op = 0x20)
  | unlisted (row : op ∉ opcodes)

theorem decodeHeader_unlisted {op : Byte} (h : op ∉ opcodes) (arg : Byte) (bs : List Byte) :
    decodeHeader op arg bs = .error .opcode := by
  simp only [opcodes, List.mem_cons, List.not_mem_nil, or_false, not_or] at h
  simp only [decodeHeader, h, if_false]

theorem opcodeRow (op : Byte) : OpcodeRow op := by
  by_cases h : op ∈ opcodes
  · simp only [opcodes, List.mem_cons, List.not_mem_nil, or_false] at h
    rcases h with rfl | rfl | rfl | rfl | rfl | rfl | rfl | rfl | rfl | rfl | rfl | rfl | rfl | rfl
    · exact .formatN (i := .fill) ⟨rfl, rfl, rfl⟩
    · exact .formatN (i := .crst) ⟨rfl, rfl, rfl⟩
    · exact .formatI rfl
    · exact .formatS (make := .cvtUnint) ⟨rfl, fun _ _ => rfl, fun _ _ => rfl⟩
    · exact .formatS (make := .cvtChr5) ⟨rfl, fun _ _ => rfl, fun _ _ => rfl⟩
    · exact .formatS (make := .cvtDate) ⟨rfl, fun _ _ => rfl, fun _ _ => rfl⟩
    · exact .formatS (make := .cvtConres) ⟨rfl, fun _ _ => rfl, fun _ _ => rfl⟩
    · exact .formatS (make := .cvtConrelres) ⟨rfl, fun _ _ => rfl, fun _ _ => rfl⟩
    · exact .formatS (make := .cvtSingle) ⟨rfl, fun _ _ => rfl, fun _ _ => rfl⟩
    · exact .formatS (make := .cvtUnrec false) ⟨rfl, fun _ _ => rfl, fun _ _ => rfl⟩
    · exact .formatS (make := .cvtUnrec true) ⟨rfl, fun _ _ => rfl, fun _ _ => rfl⟩
    · exact .formatL rfl
    · exact .formatN (i := .term) ⟨rfl, rfl, rfl⟩
    · exact .formatN (i := .csum) ⟨rfl, rfl, rfl⟩
  · exact .unlisted h

/-- Every conversion stands in a row of format S. -/
theorem convert_formatS {i : Instr} (h : isConvert i = true) :
    ∃ op make raw rng, FormatS op make ∧ i = make raw rng := by
  cases i with
  | cvtUnrec tag7 raw rng => cases tag7 <;> exact ⟨_, _, raw, rng, ⟨rfl, fun _ _ => rfl, fun _ _ => rfl⟩, rfl⟩
  | cvtUnint raw rng | cvtChr5 raw rng | cvtDate raw rng | cvtConres raw rng | cvtConrelres raw rng
  | cvtSingle raw rng => exact ⟨_, _, raw, rng, ⟨rfl, fun _ _ => rfl, fun _ _ => rfl⟩, rfl⟩
  | fill | crst | ldv | append | term | csum => exact nomatch h

theorem fits_and_iff {raw rng : Text} :
    (Text.fits raw && Text.fits rng) = true ↔ raw.length ≤ 255 ∧ rng.length ≤ 255 := by
  simp

section
variable {op : Byte} {make : Text → Text → Instr} {raw rng : Text}

theorem FormatS.decode_encode (row : FormatS op make) (rest : List Byte) (h : (make raw rng).wf = true) :
    decode (encode (make raw rng) ++ rest) = .ok (make raw rng, rest) := by
  obtain ⟨h1, h2⟩ := fits_and_iff.mp (row.wf raw rng ▸ h)
  rw [row.writes]
  show decodeHeader op 0 (encodeText raw ++ encodeText rng ++ rest) = _
  rw [row.reads, decodeS_encode make rest h1 h2]

theorem FormatS.decode_take (row : FormatS op make) (h : (make raw rng).wf = true) {n : Nat}
    (hn : n + 2 < (encode (make raw rng)).length) : decode ((encode (make raw rng)).take (n + 2)) = .error .truncated := by
  obtain ⟨h1, h2⟩ := fits_and_iff.mp (row.wf raw rng ▸ h)
  rw [row.writes] at hn ⊢
  show decodeHeader op 0 ((encodeText raw ++ encodeText rng).take n) = _
  rw [row.reads, decodeS_truncated make h1 h2 (Nat.lt_of_add_lt_add_right hn)]

end

/-! ## The round trip and its converse (R50 to R59) -/

theorem decode_encode_ldv (imm : Word) (rest : List Byte) :
    decode (encode (.ldv imm) ++ rest) = .ok (.ldv imm, rest) :=
  congrArg (fun w => Except.ok (Instr.ldv w, rest)) (immWord imm)

theorem decode_encode_convert {i : Instr} (hi : isConvert i = true) (h : i.wf = true) (rest : List Byte) :
    decode (encode i ++ rest) = .ok (i, rest) := by
  obtain ⟨op, make, raw, rng, row, rfl⟩ := convert_formatS hi
  exact row.decode_encode rest h

/-- Settles O13: each format reads back what it writes. -/
theorem decodeEncodeRoundTrip : Obligations.DecodeEncodeRoundTrip := by
  intro i rest h
  cases i with
  | fill | crst | term | csum => rfl
  | ldv imm => exact decode_encode_ldv imm rest
  | append len => exact decodeL_encode rest h
  | cvtUnint | cvtChr5 | cvtDate | cvtConres | cvtConrelres | cvtSingle | cvtUnrec =>
    exact decode_encode_convert rfl h rest

theorem decodeHeader_ok {op arg : Byte} {bs rest : List Byte} {i : Instr} (h : decodeHeader op arg bs = .ok (i, rest)) :
    i.wf = true ∧ op :: arg :: bs = encode i ++ rest := by
  cases opcodeRow op with
  | formatN row =>
    rw [row.reads] at h
    obtain ⟨rfl, rfl, rfl⟩ := decodeN_ok h
    exact ⟨row.wf, by rw [row.writes]; rfl⟩
  | formatI row =>
    subst row
    obtain ⟨imm, rfl, rfl, rfl⟩ := decodeI_ok h
    exact ⟨rfl, rfl⟩
  | formatS row =>
    rw [row.reads] at h
    obtain ⟨raw, rng, rfl, rfl, h1, h2, rfl⟩ := decodeS_ok h
    exact ⟨(row.wf raw rng).trans (fits_and_iff.mpr ⟨h1, h2⟩), by rw [row.writes]; rfl⟩
  | formatL row =>
    subst row
    obtain ⟨len, rfl, hl, rfl, rfl⟩ := decodeL_ok h
    exact ⟨hl, rfl⟩
  | unlisted row => exact nomatch (decodeHeader_unlisted row arg bs).symm.trans h

/-- Settles O14, by the row of the packet's opcode. -/
theorem decodedBytesAreAnEncoding : Obligations.DecodedBytesAreAnEncoding := by
  intro bytes rest i h
  match bytes with
  | op :: arg :: bs => exact decodeHeader_ok h
  | [] | [_] => exact nomatch h

/-! ## The reserved encodings (R58) -/

/-- Every format but L refuses a header whose `ARG` is not 0. -/
theorem decodeHeader_arg {op arg : Byte} (hop : op ∈ opcodes) (hL : op ≠ 0x20) (ha : arg ≠ 0) (bs : List Byte) :
    decodeHeader op arg bs = .error .arg := by
  cases opcodeRow op with
  | formatN row => rw [row.reads, decodeN, if_neg ha]
  | formatI row =>
    subst row
    exact if_pos ha
  | formatS row => rw [row.reads, decodeS, if_pos ha]
  | formatL row => exact absurd row hL
  | unlisted row => exact absurd hop row

theorem highBits_toNat (arg : Byte) : (arg.extractLsb' 6 2).toNat = arg.toNat / 64 := by
  have := arg.isLt
  simp only [BitVec.extractLsb'_toNat, Nat.shiftRight_eq_div_pow]
  omega

theorem lowBits_toNat (arg : Byte) : (arg.extractLsb' 0 6).toNat = arg.toNat % 64 := by
  simp only [BitVec.extractLsb'_toNat, Nat.shiftRight_zero]

theorem decodeL_highBits {arg : Byte} (h : 64 ≤ arg.toNat) (bs : List Byte) : decodeL arg bs = .error .highBits := by
  refine if_pos fun h0 => ?_
  have : arg.toNat / 64 = 0 := (highBits_toNat arg).symm.trans (congrArg BitVec.toNat h0)
  omega

theorem decodeL_len {arg : Byte} (h : arg = 0 ∨ (33 ≤ arg.toNat ∧ arg.toNat ≤ 63)) (bs : List Byte) :
    decodeL arg bs = .error .len := by
  have hn : arg.toNat = 0 ∨ (33 ≤ arg.toNat ∧ arg.toNat ≤ 63) := h.imp_left (congrArg BitVec.toNat)
  have h6 : arg.extractLsb' 6 2 = 0 := BitVec.eq_of_toNat_eq ((highBits_toNat arg).trans (Nat.div_eq_of_lt (by omega)))
  have hl : lenLegal (arg.extractLsb' 0 6) = false := decide_eq_false (by rw [lowBits_toNat]; omega)
  simp [decodeL, h6, hl]

theorem decode_take_ldv (imm : Word) {n : Nat} (hn : n < 4) :
    decode ((encode (.ldv imm)).take (n + 2)) = .error .truncated := by
  match n with
  | 0 | 1 | 2 | 3 => rfl

theorem decode_take_convert {i : Instr} (hi : isConvert i = true) (h : i.wf = true) {n : Nat}
    (hn : n + 2 < (encode i).length) : decode ((encode i).take (n + 2)) = .error .truncated := by
  obtain ⟨op, make, raw, rng, row, rfl⟩ := convert_formatS hi
  exact row.decode_take h hn

/-- A packet cut short in its header or in its payload. -/
theorem decode_take {i : Instr} {n : Nat} (h : i.wf = true) (hn : n < (encode i).length) :
    decode ((encode i).take n) = .error .truncated := by
  match n with
  | 0 => rfl
  | 1 => cases i <;> rfl
  | n + 2 =>
    cases i with
    | fill | crst | append | term | csum => exact absurd hn (Nat.not_lt.mpr (Nat.le_add_left 2 n))
    | ldv imm => exact decode_take_ldv imm (Nat.lt_of_add_lt_add_right hn)
    | cvtUnint | cvtChr5 | cvtDate | cvtConres | cvtConrelres | cvtSingle | cvtUnrec =>
      exact decode_take_convert rfl h hn

/-- Settles O15, one lemma for each way an encoding is reserved. -/
theorem reservedEncodingsAreRejected : Obligations.ReservedEncodingsAreRejected := by
  refine ⟨fun op arg bs h => decodeHeader_unlisted h arg bs, fun op arg bs h ha => ?_,
    fun arg bs h => decodeL_highBits h bs, fun arg bs h => decodeL_len h bs, fun i n => decode_take⟩
  obtain ⟨hop, hL⟩ : op ∈ opcodes ∧ op ≠ 0x20 := by
    revert op
    decide
  exact decodeHeader_arg hop hL ha bs

/-! ## Packets written out (R51 to R57) -/

/-- Settles O16: each packet is its command's encoding. -/
theorem writtenOutWordsDecode : Obligations.WrittenOutWordsDecode :=
  have read (i : Instr) (h : i.wf = true) : decode (encode i ++ []) = .ok (i, []) := decodeEncodeRoundTrip i [] h
  ⟨read .fill rfl, read .crst rfl, read (.ldv 0xDEADBEEF) rfl, read (.cvtUnint [0x35] []) rfl,
    read (.cvtUnrec true [0x35] [0x7A, 0x7A]) rfl, read (.append 10) rfl, read .term rfl, read .csum rfl⟩

/-! ## The step on what the host sends first (R8, R41, R50, R58) -/

/-- Settles O4: the command is fetched and run. -/
theorem stepRunsDecodedCommand : Obligations.StepRunsDecodedCommand := by
  intro s bytes rest acts i h
  rw [step, fetch_of_decode h]
  rfl

theorem fetch_of_reserved {s : State} {bytes : List Byte} {acts : List HostAct} {why : Reserved} (hb : bytes ≠ [])
    (h : decode bytes = .error why) :
    fetch { s with host := .send bytes :: acts } = (.reserved why, { s with host := acts }) := by
  cases bytes with
  | nil => exact absurd rfl hb
  | cons b bs => simp only [fetch, fetchFrom, h]

/-- Settles O60: the verdict is fetched and refused. -/
theorem stepRefusesReserved : Obligations.StepRefusesReserved := by
  intro s bytes acts why hb h
  rw [step, fetch_of_reserved hb h]

/-- The packet of a table word is the encoding of the command the decoder reads there (log entry 17). -/
theorem tablePacket_of_decode {nbits w : Nat} {i : Instr} (h : decodeTableWord nbits w = some i) :
    i.wf = true ∧ tablePacket nbits w = encode i := by
  unfold decodeTableWord at h
  cases hd : decode (tableBytes nbits w) with
  | error e => simp [hd] at h
  | ok p =>
    obtain ⟨j, rest⟩ := p
    obtain rfl : j = i := by simpa [hd] using h
    obtain ⟨hw, hb⟩ := decodedBytesAreAnEncoding _ _ _ hd
    refine ⟨hw, ?_⟩
    simp only [tablePacket, hd]
    rw [hb, List.length_append, Nat.add_sub_cancel, List.take_left]

/-- Settles O6: what is placed is one whole packet, so nothing of it is left after the command. -/
theorem placedWordRunsNext : Obligations.PlacedWordRunsNext := by
  intro s nbits w i h
  obtain ⟨hw, hp⟩ := tablePacket_of_decode h
  have hd : decode (tablePacket nbits w) = .ok (i, []) := by
    simpa [hp] using decodeEncodeRoundTrip i [] hw
  exact stepRunsDecodedCommand s _ [] s.host i hd

/-! ## `HEX` (R65) -/

theorem hexDigit_digit {n : Nat} (h : n < 16) : some (hexDigit n) = "0123456789ABCDEF".toList[n]? := by
  revert n
  decide

theorem hex_cons (b : Byte) (bs : List Byte) :
    hex (b :: bs) = hexDigit (b.toNat / 16) :: hexDigit (b.toNat % 16) :: hex bs := rfl

theorem hex_length (bytes : List Byte) : (hex bytes).length = 2 * bytes.length := by
  induction bytes with
  | nil => rfl
  | cons b bs ih => rw [hex_cons, List.length_cons, List.length_cons, ih, List.length_cons, Nat.mul_succ]

theorem hex_getElem (bytes : List Byte) (i : Nat) (h : i < bytes.length) :
    (hex bytes)[2 * i]? = some (hexDigit (bytes[i].toNat / 16)) ∧
      (hex bytes)[2 * i + 1]? = some (hexDigit (bytes[i].toNat % 16)) := by
  induction bytes generalizing i with
  | nil => exact nomatch h
  | cons b bs ih =>
    cases i with
    | zero => exact ⟨rfl, rfl⟩
    | succ i => exact ih i (Nat.lt_of_succ_lt_succ h)

/-- Settles O57: each byte gives two characters, and each is the digit of a nibble. -/
theorem hexRendersEachByte : Obligations.HexRendersEachByte := by
  intro bytes
  refine ⟨hex_length bytes, fun i h => ?_⟩
  obtain ⟨hhi, hlo⟩ := hex_getElem bytes i h
  exact ⟨hhi.trans (hexDigit_digit (by omega)), hlo.trans (hexDigit_digit (by omega))⟩

end Sys2Proof.Machine

namespace Sys2Proof.Machine

/-! ## Where commands are refused (R58, R84, R127) -/

section
variable {s : State} {r : Refusal}

/-- R188's line refuses nothing: a refusal comes from the statements after it. -/
theorem unlessFaulted_refused {body : State → Host.Outcome State Fault Refusal}
    (h : unlessFaulted s body = .refused r) : s.err = .none ∧ body s = .refused r := by
  rcases unlessFaulted_cases s body with ⟨hr, e⟩ | ⟨-, e⟩
  · exact ⟨hr, e.symm.trans h⟩
  · exact nomatch h.symm.trans e

theorem execCrst_ne_refused : execCrst s ≠ .refused r := fun h => nomatch (unlessFaulted_refused h).2

theorem execLdv_ne_refused (imm : Word) : execLdv imm s ≠ .refused r := fun h => nomatch (unlessFaulted_refused h).2

theorem execCsum_ne_refused : execCsum s ≠ .refused r := fun h => nomatch (unlessFaulted_refused h).2

/-- The packer refuses nothing itself: a refusal comes from the command's last statement. -/
theorem PackerFlow.finish_refused {f : Flow} {g : State → Host.Outcome State Fault Refusal} (h : PackerFlow s f)
    (e : f.finish g = .refused r) : ∃ t, g t = .refused r := by
  cases h with
  | go buf cur => exact ⟨_, e⟩
  | overflow => exact nomatch e
  | outside => exact nomatch e

theorem execAppend_refused {len : BitVec 6} (hl : lenLegal len = true) (h : execAppend len s = .refused r) :
    s.err = .none ∧ r = .valAbsent ∧ s.val = none := by
  rw [execAppend, if_pos hl] at h
  obtain ⟨hr, e⟩ := unlessFaulted_refused h
  cases hv : s.val with
  | none =>
    simp only [hv] at e
    exact ⟨hr, (Host.Outcome.refused.inj e).symm, rfl⟩
  | some v =>
    simp only [hv] at e
    obtain ⟨t, ht⟩ := (putLanes_flow _ _ _ s).finish_refused e
    exact nomatch ht

theorem execTerm_ne_refused : execTerm s ≠ .refused r := by
  intro h
  have hf := (alignForTerm_flow s).andThen (putChunk_flow Config.termByte 8)
  obtain ⟨t, ht⟩ := hf.finish_refused (unlessFaulted_refused h).2
  exact nomatch ht

theorem exec_convert_refused {i : Instr} (hi : isConvert i = true) (h : exec i s = .refused r) :
    s.err = .none ∧ r = .resultOutOfRange ∧
      ∃ raw rng, i = .cvtUnint raw rng ∨ i = .cvtConres raw rng ∨ i = .cvtConrelres raw rng := by
  by_cases hr : s.err = .none
  · rcases convert_cases hi hr with ⟨v, d, e, -⟩ | ⟨err, -, e⟩ | ⟨e, hc⟩
    · exact nomatch h.symm.trans e
    · exact nomatch h.symm.trans e
    · exact ⟨hr, Host.Outcome.refused.inj (h.symm.trans e), hc⟩
  · exact nomatch h.symm.trans (exec_convert_faulted hi hr)

end

/-- Settles O11: an `APPEND` refuses for `VAL`, a conversion for its integer, and no other command refuses. -/
theorem commandsRefuseOnlyWhereStated : Obligations.CommandsRefuseOnlyWhereStated := by
  intro i s r hw h
  cases i with
  | fill => exact nomatch h
  | crst => exact absurd h execCrst_ne_refused
  | ldv imm => exact absurd h (execLdv_ne_refused imm)
  | csum => exact absurd h execCsum_ne_refused
  | term => exact absurd h execTerm_ne_refused
  | append len =>
    obtain ⟨hr, e, hv⟩ := execAppend_refused hw h
    exact ⟨hr, .inl ⟨e, hv, len, rfl⟩⟩
  | cvtUnint | cvtChr5 | cvtDate | cvtConres | cvtConrelres | cvtSingle | cvtUnrec =>
    obtain ⟨hr, hc⟩ := exec_convert_refused rfl h
    exact ⟨hr, .inr hc⟩

end Sys2Proof.Machine

namespace Sys2Proof.Machine

/-! ## Rounding and truncation (R7, R83) -/

section
variable {K : Type} [Field K] [LinearOrder K] [IsStrictOrderedRing K] [FloorRing K]

theorem roundBy_false (tie : RoundTie) (m : Int) : roundBy tie m false = m := by
  cases tie <;> simp [roundBy]

/-- `roundBy` of the floor `m + 1` that an exact half `m + 1/2` gives. -/
theorem roundBy_true (tie : RoundTie) (m : Int) : roundBy tie (m + 1) true = halfRounded tie m := by
  cases tie with
  | halfUp => rfl
  | halfEven => simp only [roundBy, halfRounded]; grind
  | halfAway => simp only [roundBy, halfRounded]; grind

theorem floor_half (m : ℤ) : ⌊(m + 1 / 2 : K) + 1 / 2⌋ = m + 1 := by
  rw [show (m + 1 / 2 : K) + 1 / 2 = ((m + 1 : ℤ) : K) by push_cast; ring, Int.floor_intCast]

/-- An exact half goes by `ROUND_TIE` (R83). -/
theorem roundBy_floor_half (tie : RoundTie) {x : K} {m : ℤ} (h : x = m + 1 / 2) :
    roundBy tie ⌊x + 1 / 2⌋ true = halfRounded tie m := by
  rw [h, floor_half, roundBy_true]

/-- Away from the halves `floor(x + 1/2)` is nearer to `x` than 1/2 (R83). -/
theorem floor_add_half_near {x : K} (h : ∀ m : ℤ, x ≠ m + 1 / 2) : |x - ⌊x + 1 / 2⌋| < 1 / 2 := by
  have h1 := Int.floor_le (x + 1 / 2)
  have h2 := Int.lt_floor_add_one (x + 1 / 2)
  have h3 := h (⌊x + 1 / 2⌋ - 1)
  push_cast at h3
  rw [abs_lt]
  constructor
  · refine lt_of_le_of_ne (by linarith) fun e => h3 (by linarith)
  · linarith

/-- An integer nearer to `x` than 1/2 is `floor(x + 1/2)`. -/
theorem floor_add_half_eq {x : K} {n : ℤ} (h : |n - x| < 1 / 2) : ⌊x + 1 / 2⌋ = n := by
  obtain ⟨h1, h2⟩ := abs_lt.mp h
  exact Int.floor_eq_iff.mpr ⟨by linarith, by linarith⟩

/-- No integer is nearer to a half than 1/2. -/
theorem half_not_near (m n : ℤ) : ¬|(n : K) - (m + 1 / 2)| < 1 / 2 := by
  intro h
  have h2 := floor_add_half_eq h
  rw [floor_half] at h2
  obtain ⟨-, h1⟩ := abs_lt.mp h
  rw [← h2] at h1
  push_cast at h1
  linarith

theorem halfRounded_cases (tie : RoundTie) (m : Int) : halfRounded tie m = m ∨ halfRounded tie m = m + 1 := by
  cases tie with
  | halfUp => exact .inr rfl
  | halfEven => exact ite_eq_or_eq _ _ _
  | halfAway => exact (ite_eq_or_eq _ _ _).symm

end

theorem den_eq_one_iff_half (q : ℚ) : (q + 1 / 2).den = 1 ↔ ∃ m : ℤ, q = m + 1 / 2 := by
  constructor
  · intro h
    have e := Rat.coe_int_num_of_den_eq_one h
    refine ⟨(q + 1 / 2).num - 1, ?_⟩
    push_cast
    rw [e]
    ring
  · rintro ⟨m, rfl⟩
    rw [show (m + 1 / 2 : ℚ) + 1 / 2 = ((m + 1 : ℤ) : ℚ) by push_cast; ring, Rat.den_intCast]

theorem roundRat_half (tie : RoundTie) {q : ℚ} {m : ℤ} (h : q = m + 1 / 2) : roundRat tie q = halfRounded tie m := by
  rw [roundRat, decide_eq_true ((den_eq_one_iff_half q).mpr ⟨m, h⟩)]
  exact roundBy_floor_half tie h

theorem roundRat_not_half (tie : RoundTie) {q : ℚ} (h : ∀ m : ℤ, q ≠ m + 1 / 2) : roundRat tie q = ⌊q + 1 / 2⌋ := by
  rw [roundRat, decide_eq_false fun hd => absurd ((den_eq_one_iff_half q).mp hd) (by simpa using h), roundBy_false]
  rfl

theorem roundRat_of_near (tie : RoundTie) {q : ℚ} {n : ℤ} (h : |(n : ℚ) - q| < 1 / 2) : roundRat tie q = n := by
  rw [roundRat_not_half tie fun m e => half_not_near m n (e ▸ h), floor_add_half_eq h]

/-- R83: whatever `ROUND_TIE` is, `round` moves a number by at most 1/2. -/
theorem roundRat_dist (tie : RoundTie) (q : ℚ) : |(roundRat tie q : ℚ) - q| ≤ 1 / 2 := by
  by_cases h : ∃ m : ℤ, q = m + 1 / 2
  · obtain ⟨m, hm⟩ := h
    rw [roundRat_half tie hm, hm]
    rcases halfRounded_cases tie m with e | e <;> rw [e, abs_le] <;> push_cast <;> constructor <;> linarith
  · push Not at h
    rw [roundRat_not_half tie h, abs_sub_comm]
    exact (floor_add_half_near h).le

/-- Settles O22: an integer nearer than 1/2 is the one, and an exact half is the floor's own case. -/
theorem roundRule : Obligations.RoundRule := by
  intro tie q
  refine ⟨fun n h => roundRat_of_near tie h, fun m h => ?_⟩
  refine ⟨roundRat_half .halfUp h, roundRat_half .halfEven h, ?_⟩
  have hq : 0 < q ↔ 0 ≤ m := by
    rw [h]
    constructor
    · intro hp
      have : (-1 : ℚ) < m := by linarith
      have : -1 < m := by exact_mod_cast this
      omega
    · intro hm
      have : (0 : ℚ) ≤ m := by exact_mod_cast hm
      linarith
  rw [roundRat_half .halfAway h]
  simp only [hq]
  rfl

/-- Settles O31: `round` is within 1/2 of the quotient, and the step scales the difference. -/
theorem conresIndexWithinHalfAStep : Obligations.ConresIndexWithinHalfAStep := by
  intro tie v lo st hst
  have e : lo + st * roundRat tie ((v - lo) / st) - v = st * (roundRat tie ((v - lo) / st) - (v - lo) / st) := by
    field_simp
    ring
  calc |lo + st * roundRat tie ((v - lo) / st) - v|
      = |st| * |roundRat tie ((v - lo) / st) - (v - lo) / st| := by rw [e, abs_mul]
    _ ≤ |st| * (1 / 2) := by gcongr; exact roundRat_dist tie _
    _ = |st| / 2 := by ring

/-- R7: truncation is toward zero and moves a number by less than 1. -/
theorem truncRat_spec (q : ℚ) :
    |(truncRat q : ℚ)| ≤ |q| ∧ |q| < |(truncRat q : ℚ)| + 1 ∧ 0 ≤ (truncRat q : ℚ) * q := by
  have key : ∀ p : ℚ, 0 ≤ p → |(⌊p⌋ : ℚ)| ≤ |p| ∧ |p| < |(⌊p⌋ : ℚ)| + 1 ∧ 0 ≤ (⌊p⌋ : ℚ) * p := by
    intro p hp
    have hf : (0 : ℚ) ≤ ⌊p⌋ := by exact_mod_cast Int.floor_nonneg.mpr hp
    rw [abs_of_nonneg hf, abs_of_nonneg hp]
    exact ⟨Int.floor_le p, Int.lt_floor_add_one p, mul_nonneg hf hp⟩
  unfold truncRat
  split_ifs with h
  · exact key q h
  · have := key (-q) (by linarith)
    push_cast
    rwa [abs_neg, neg_mul, ← mul_neg, ← abs_neg q]

/-- Settles O21: `to_u32` takes the integers of R84's range to their residues. -/
theorem toU32Rule : Obligations.ToU32Rule := by
  intro n
  refine ⟨fun h => ⟨BitVec.ofInt 32 n, if_pos h, ?_⟩, fun h => if_neg h⟩
  rw [BitVec.toNat_ofInt]
  exact Int.toNat_of_nonneg (Int.emod_nonneg n (by decide))

end Sys2Proof.Machine

namespace Sys2Proof.Machine

/-! ## Single precision (R63, R96) -/

/-- The value of a pattern whose binade begins at `2^(E - 126)`, or the lowest one: `f` units in the last place. The
pattern with `f = 2^24` is the next binade's first. -/
theorem singleVal_binade {E f : Nat} (hf : f ≤ 2 ^ 24) (h : E = 0 ∨ 2 ^ 23 ≤ f) :
    singleVal (E * 2 ^ 23 + f) = f * (2 : ℚ) ^ ((E : ℤ) - 149) := by
  rcases lt_or_ge f (2 ^ 23) with h1 | h1
  · obtain rfl : E = 0 := h.resolve_right (by omega)
    rw [singleVal, if_pos (by omega)]
    simp
  rw [singleVal, if_neg (by omega)]
  rcases hf.lt_or_eq with h2 | rfl
  · rw [show (E * 2 ^ 23 + f) / 2 ^ 23 = E + 1 by omega, show 2 ^ 23 + (E * 2 ^ 23 + f) % 2 ^ 23 = f by omega]
    congr 2
    push_cast
    ring
  · rw [show (E * 2 ^ 23 + 2 ^ 24) / 2 ^ 23 = E + 2 by omega,
      show 2 ^ 23 + (E * 2 ^ 23 + 2 ^ 24) % 2 ^ 23 = 2 ^ 23 by omega,
      show ((E + 2 : ℕ) : ℤ) - 150 = ((E : ℤ) - 149) + 1 by push_cast; ring, zpow_add_one₀ (by norm_num)]
    push_cast
    ring

/-- A larger pattern stands for a larger number. -/
theorem singleVal_strictMono : StrictMono singleVal := by
  refine strictMono_nat_of_lt_succ fun p => ?_
  obtain ⟨E, f, rfl, hf, h⟩ : ∃ E f, p = E * 2 ^ 23 + f ∧ f < 2 ^ 24 ∧ (E = 0 ∨ 2 ^ 23 ≤ f) :=
    ⟨p / 2 ^ 23 - 1, p - (p / 2 ^ 23 - 1) * 2 ^ 23, by omega, by omega, by omega⟩
  rw [Nat.add_assoc, singleVal_binade hf.le h, singleVal_binade hf (h.imp_right (by omega))]
  push_cast
  gcongr
  linarith

/-- R96: the number of units in the last place of `2^(E - 126)`'s binade that `q` is, and the binade. -/
structure SingleScale (q : ℚ) (E : Nat) (m : ℚ) : Prop where
  scaled : q = m * (2 : ℚ) ^ ((E : ℤ) - 149)
  nonneg : 0 ≤ m
  lt : m < 2 ^ 24
  normal : E = 0 ∨ 2 ^ 23 ≤ m

theorem exists_singleScale {q : ℚ} (h : 0 < q) :
    ∃ E : Nat, max (ilog2 q) (-126) = (E : ℤ) - 126 ∧ SingleScale q E (q / (2 : ℚ) ^ ((E : ℤ) - 149)) := by
  obtain ⟨h1, h2⟩ := ilog2_spec h
  refine ⟨(max (ilog2 q) (-126) + 126).toNat, by omega, ?_⟩
  have hE : (((max (ilog2 q) (-126) + 126).toNat : ℕ) : ℤ) = max (ilog2 q) (-126) + 126 := by omega
  generalize (max (ilog2 q) (-126) + 126).toNat = E at hE ⊢
  have hu : (0 : ℚ) < (2 : ℚ) ^ ((E : ℤ) - 149) := by positivity
  refine ⟨by field_simp, by positivity, ?_, ?_⟩
  · rw [div_lt_iff₀ hu, ← zpow_natCast, ← zpow_add₀ (by norm_num)]
    exact h2.trans_le (zpow_le_zpow_right₀ (by norm_num) (by push_cast; omega))
  · rcases Nat.eq_zero_or_pos E with h0 | h0
    · exact .inl h0
    · right
      rw [le_div_iff₀ hu, ← zpow_natCast, ← zpow_add₀ (by norm_num)]
      exact (zpow_le_zpow_right₀ (by norm_num) (by push_cast; omega)).trans h1

section
variable {q m : ℚ} {E : Nat} (hs : SingleScale q E m)
include hs

theorem SingleScale.le_of_lt_roundEven (h : m < roundEven m) : E = 0 ∨ 2 ^ 23 ≤ roundEven m - 1 := by
  refine hs.normal.imp_right fun hn => ?_
  have : (2 ^ 23 : ℚ) < roundEven m := hn.trans_lt h
  have : 2 ^ 23 < roundEven m := by exact_mod_cast this
  omega

theorem SingleScale.roundEven_le : roundEven m ≤ 2 ^ 24 := by
  have h := (abs_le.mp (roundEven_spec hs.nonneg).1).2
  have : (roundEven m : ℚ) < (2 ^ 24 + 1 : ℕ) := by
    push_cast
    linarith [hs.lt]
  exact Nat.lt_succ_iff.mp (by exact_mod_cast this)

theorem SingleScale.normal_roundEven : E = 0 ∨ 2 ^ 23 ≤ roundEven m := by
  refine hs.normal.imp_right fun hn => ?_
  have h := (abs_le.mp (roundEven_spec hs.nonneg).1).1
  have : ((2 ^ 23 - 1 : ℕ) : ℚ) < roundEven m := by
    push_cast
    linarith
  have : 2 ^ 23 - 1 < roundEven m := by exact_mod_cast this
  omega

theorem SingleScale.val_roundEven :
    singleVal (E * 2 ^ 23 + roundEven m) = roundEven m * (2 : ℚ) ^ ((E : ℤ) - 149) :=
  singleVal_binade hs.roundEven_le hs.normal_roundEven

/-- A larger pattern than the rounded one is farther from `q`, or at least half a unit away. -/
theorem SingleScale.far_above {p : Nat} (hp : E * 2 ^ 23 + roundEven m < p) :
    |singleVal (E * 2 ^ 23 + roundEven m) - q| < |singleVal p - q| ∨
      1 / 2 * (2 : ℚ) ^ ((E : ℤ) - 149) ≤ |singleVal p - q| := by
  obtain ⟨hlo, -⟩ := abs_le.mp (roundEven_spec hs.nonneg).1
  have hv := hs.val_roundEven
  have hq := hs.scaled
  have hu : (0 : ℚ) < (2 : ℚ) ^ ((E : ℤ) - 149) := by positivity
  have hmono := singleVal_strictMono hp
  rcases le_or_gt m (roundEven m) with hm | hm
  · left
    have : q ≤ singleVal (E * 2 ^ 23 + roundEven m) := by rw [hv, hq]; gcongr
    rw [abs_of_nonneg (by linarith), abs_of_nonneg (by linarith)]
    linarith
  · right
    have hf : roundEven m + 1 ≤ 2 ^ 24 := by exact_mod_cast hm.trans hs.lt
    have hnext := singleVal_strictMono.monotone (Nat.succ_le_of_lt hp)
    rw [Nat.succ_eq_add_one, Nat.add_assoc, singleVal_binade hf (hs.normal_roundEven.imp_right (by omega))] at hnext
    refine le_trans ?_ (le_abs_self _)
    have hm1 : m + 1 / 2 ≤ ((roundEven m + 1 : ℕ) : ℚ) := by
      push_cast
      linarith
    linarith [mul_le_mul_of_nonneg_right hm1 hu.le]

/-- A smaller pattern than the rounded one is farther from `q`, or at least half a unit away. -/
theorem SingleScale.far_below {p : Nat} (hp : p < E * 2 ^ 23 + roundEven m) :
    |singleVal (E * 2 ^ 23 + roundEven m) - q| < |singleVal p - q| ∨
      1 / 2 * (2 : ℚ) ^ ((E : ℤ) - 149) ≤ |singleVal p - q| := by
  obtain ⟨-, hhi⟩ := abs_le.mp (roundEven_spec hs.nonneg).1
  have hv := hs.val_roundEven
  have hq := hs.scaled
  have hu : (0 : ℚ) < (2 : ℚ) ^ ((E : ℤ) - 149) := by positivity
  have hmono := singleVal_strictMono hp
  rcases le_or_gt (roundEven m : ℚ) m with hm | hm
  · left
    have : singleVal (E * 2 ^ 23 + roundEven m) ≤ q := by rw [hv, hq]; gcongr
    rw [abs_of_nonpos (by linarith), abs_of_nonpos (by linarith)]
    linarith
  · right
    have hf : 1 ≤ roundEven m := by exact_mod_cast hs.nonneg.trans_lt hm
    have hprev := singleVal_strictMono.monotone (Nat.le_sub_one_of_lt hp)
    rw [Nat.add_sub_assoc hf, singleVal_binade (by have := hs.roundEven_le; omega) (hs.le_of_lt_roundEven hm)] at hprev
    refine le_trans ?_ (neg_le_abs _)
    have hm1 : ((roundEven m - 1 : ℕ) : ℚ) ≤ m - 1 / 2 := by
      push_cast [hf]
      linarith
    linarith [mul_le_mul_of_nonneg_right hm1 hu.le]

/-- The pattern of the nearest number of units is nearer to `q` than any other, or as near and even. -/
theorem SingleScale.nearest {p : Nat} (hp : p ≠ E * 2 ^ 23 + roundEven m) :
    |singleVal (E * 2 ^ 23 + roundEven m) - q| < |singleVal p - q| ∨
      (|singleVal (E * 2 ^ 23 + roundEven m) - q| = |singleVal p - q| ∧ (E * 2 ^ 23 + roundEven m) % 2 = 0) := by
  obtain ⟨hd, heven⟩ := roundEven_spec hs.nonneg
  have hu : (0 : ℚ) < (2 : ℚ) ^ ((E : ℤ) - 149) := by positivity
  have hdist : |singleVal (E * 2 ^ 23 + roundEven m) - q| = |roundEven m - m| * (2 : ℚ) ^ ((E : ℤ) - 149) := by
    rw [hs.val_roundEven, ← abs_of_pos hu, ← abs_mul, abs_of_pos hu, sub_mul, ← hs.scaled]
  rcases hp.lt_or_gt.elim hs.far_below hs.far_above with h | h
  · exact .inl h
  · have hle : |singleVal (E * 2 ^ 23 + roundEven m) - q| ≤ 1 / 2 * (2 : ℚ) ^ ((E : ℤ) - 149) := by
      rw [hdist]
      gcongr
    refine (hle.trans h).lt_or_eq.imp_right fun e => ⟨e, ?_⟩
    have hhalf : |(roundEven m : ℚ) - m| = 1 / 2 := mul_right_cancel₀ hu.ne' (hdist.symm.trans (le_antisymm hle (e ▸ h)))
    have := heven hhalf
    omega

/-- Rounding reaches `2^24` units from half a unit below it on: there the even neighbour is `2^24`. -/
theorem SingleScale.roundEven_lt_iff : roundEven m < 2 ^ 24 ↔ m < 2 ^ 24 - 1 / 2 := by
  obtain ⟨hd, heven⟩ := roundEven_spec hs.nonneg
  obtain ⟨hlo, hhi⟩ := abs_le.mp hd
  constructor
  · intro h
    have hf : (roundEven m : ℚ) + 1 ≤ 2 ^ 24 := by exact_mod_cast h
    refine lt_of_le_of_ne (by linarith) fun e => ?_
    have hm : (roundEven m : ℚ) = (2 ^ 24 - 1 : ℕ) := by
      push_cast
      linarith
    have := heven (by rw [hm, e]; norm_num)
    rw [Nat.cast_injective hm] at this
    exact absurd this (by decide)
  · intro h
    have : (roundEven m : ℚ) < (2 ^ 24 : ℕ) := by
      push_cast
      linarith
    exact_mod_cast this

/-- Up to half a unit above the largest finite number the rounded pattern is finite, and from there on it is not. -/
theorem SingleScale.finite_iff : E * 2 ^ 23 + roundEven m < 0x7F800000 ↔ q < (2 ^ 25 - 1) * 2 ^ 103 := by
  have hle := hs.roundEven_le
  have hq := hs.scaled
  rcases lt_trichotomy E 253 with hE | rfl | hE
  · refine iff_of_true (by omega) ?_
    calc q < 2 ^ 24 * (2 : ℚ) ^ ((E : ℤ) - 149) := by rw [hq]; gcongr; exact hs.lt
      _ ≤ 2 ^ 24 * (2 : ℚ) ^ (103 : ℤ) := by gcongr 2 ^ 24 * ?_; exact zpow_le_zpow_right₀ one_le_two (by omega)
      _ < (2 ^ 25 - 1) * 2 ^ 103 := by norm_num
  · have hu : q = m * 2 ^ 104 := hq
    rw [show 253 * 2 ^ 23 + roundEven m < 0x7F800000 ↔ roundEven m < 2 ^ 24 by omega, hs.roundEven_lt_iff, hu]
    constructor <;> intro h <;> linarith
  · have hn := hs.normal.resolve_left (by omega)
    have hf := hs.normal_roundEven.resolve_left (by omega)
    refine iff_of_false (by omega) (not_lt.mpr ?_)
    calc ((2 ^ 25 - 1) * 2 ^ 103 : ℚ) ≤ 2 ^ 23 * (2 : ℚ) ^ (105 : ℤ) := by norm_num
      _ ≤ 2 ^ 23 * (2 : ℚ) ^ ((E : ℤ) - 149) := by gcongr 2 ^ 23 * ?_; exact zpow_le_zpow_right₀ one_le_two (by omega)
      _ ≤ q := by rw [hq]; gcongr

end

theorem packSingle_eq {E f : Nat} (hf : f < 2 ^ 24) (h : E = 0 ∨ 2 ^ 23 ≤ f) :
    packSingle f ((E : ℤ) - 126) = min 0x7F800000 (E * 2 ^ 23 + f) := by
  unfold packSingle
  split_ifs <;> omega

/-- R96 in one formula: the pattern is the binade's first and the rounded fraction, up to infinity. -/
theorem singleMag_eq {q : ℚ} (h : 0 < q) :
    ∃ E m, SingleScale q E m ∧ singleMag q = min 0x7F800000 (E * 2 ^ 23 + roundEven m) := by
  obtain ⟨E, he, hs⟩ := exists_singleScale h
  refine ⟨E, _, hs, ?_⟩
  rw [singleMag, if_neg h.ne', he]
  simp only
  rw [show (E : ℤ) - 126 - 23 = (E : ℤ) - 149 by ring]
  split_ifs with hf
  · rw [hf, show (E : ℤ) - 126 + 1 = ((E + 1 : ℕ) : ℤ) - 126 by push_cast; ring,
      packSingle_eq (by norm_num) (.inr le_rfl)]
    omega
  · exact packSingle_eq (lt_of_le_of_ne hs.roundEven_le hf) hs.normal_roundEven

theorem singleMag_le (q : ℚ) (h : 0 ≤ q) : singleMag q ≤ 0x7F800000 := by
  rcases h.eq_or_lt with rfl | h
  · exact Nat.zero_le _
  · obtain ⟨E, m, -, e⟩ := singleMag_eq h
    rw [e]
    exact min_le_left _ _

/-- Settles O36: below the bound the pattern is the rounded one, which is nearest, and from the bound on infinity. -/
theorem singleIsCorrectlyRounded : Obligations.SingleIsCorrectlyRounded := by
  intro q h
  rcases h.eq_or_lt with rfl | h
  · refine ⟨fun _ => ⟨by decide, fun p _ hp => .inl ?_⟩, fun h => absurd h (by norm_num)⟩
    have h0 : singleVal 0 = 0 := by norm_num [singleVal]
    have hpos := singleVal_strictMono (Nat.pos_of_ne_zero hp)
    show |singleVal 0 - 0| < |singleVal p - 0|
    rw [h0] at hpos ⊢
    simpa using hpos.ne'
  obtain ⟨E, m, hs, e⟩ := singleMag_eq h
  refine ⟨fun hq => ?_, fun hq => ?_⟩
  · have hf := hs.finite_iff.mpr hq
    rw [min_eq_right hf.le] at e
    rw [e]
    exact ⟨hf, fun p _ hp => hs.nearest hp⟩
  · rw [e]
    exact min_eq_left (not_lt.mp fun hf => absurd (hs.finite_iff.mp hf) (not_lt.mpr hq))

end Sys2Proof.Machine

namespace Sys2Proof.Machine

/-! ## The conversions, case by case (R80 to R97) -/

section
variable {s : State} {raw rng : Text}

/-- R84 on both sides of its range. -/
theorem writeInt_spec (n : Int) (s : State) :
    (-2 ^ 31 ≤ n ∧ n ≤ 2 ^ 32 - 1 → writeInt n s = .next { s with val := some (BitVec.ofInt 32 n) }) ∧
      (¬(-2 ^ 31 ≤ n ∧ n ≤ 2 ^ 32 - 1) → writeInt n s = .refused .resultOutOfRange) :=
  ⟨fun h => writeInt_in h s, fun h => writeInt_out h s⟩

theorem writeBits_natCast (n : Nat) (s : State) : writeBits n s = .next { s with val := some (BitVec.ofNat 32 n) } := by
  rw [writeBits, BitVec.ofInt_natCast]

/-! `CVT.CHR5` -/

theorem code5_eq (c : Byte) : code5 c = c.toNat % 2 ^ 5 := by
  unfold code5
  omega

/-- R86: lane `j div 5` of the sum holds the low bits of that character. -/
theorem chr5_testBit (t : Text) (j : Nat) :
    (chr5 t).testBit j = ((t[j / 5]?).map fun c => c.getLsbD (j % 5)).getD false := by
  induction t generalizing j with
  | nil => simp [chr5]
  | cons c t ih =>
    rw [chr5, Nat.add_comm, code5_eq, Nat.testBit_two_pow_mul_add _ (Nat.mod_lt _ (by decide))]
    split_ifs with h
    · rw [Nat.testBit_mod_two_pow, Nat.div_eq_of_lt h, Nat.mod_eq_of_lt h]
      simp [h, BitVec.getLsbD]
    · rw [ih, show j / 5 = (j - 5) / 5 + 1 by omega, show j % 5 = (j - 5) % 5 by omega, List.getElem?_cons_succ]

/-! `CVT.UNINT` -/

theorem exec_cvtUnint_some (h : s.err = .none) {x : Number} (hx : decimal? raw = some x) :
    exec (.cvtUnint raw rng) s = writeInt (truncRat x.val) s := by
  rw [exec_cvtUnint, execCvtUnint, unlessFaulted_running h, hx]

/-! `CVT.CONRES` -/

theorem exec_cvtConres_none (h : s.err = .none) (hq : conresQuotient raw rng = none) :
    exec (.cvtConres raw rng) s = .next { s with err := .parseError } := by
  rw [exec_cvtConres, execCvtConres, unlessFaulted_running h, hq]
  rfl

theorem exec_cvtConres_some (h : s.err = .none) {q : Rat} (hq : conresQuotient raw rng = some q) :
    exec (.cvtConres raw rng) s = writeInt (roundRat s.params.roundTie q) s := by
  rw [exec_cvtConres, execCvtConres, unlessFaulted_running h, hq]

theorem conresQuotient_eq {x : Number} {spec : RangeSpec} (hx : decimal? raw = some x)
    (hs : conresSpec? rng = some spec) :
    conresQuotient raw rng = if spec.res = 0 then none else some ((x.val - spec.min) / spec.res) := by
  rw [conresQuotient, hx, hs]

theorem conresQuotient_eq_none (h : decimal? raw = none ∨ conresSpec? rng = none) : conresQuotient raw rng = none := by
  rw [conresQuotient]
  rcases h with h | h
  · rw [h]
  · rw [h]
    cases decimal? raw <;> rfl

/-! `CVT.CONRELRES` -/

theorem exec_cvtConrelres_none (h : s.err = .none) (ho : conrelresOperands raw rng = none) :
    exec (.cvtConrelres raw rng) s = .next { s with err := .parseError } := by
  rw [exec_cvtConrelres, execCvtConrelres, unlessFaulted_running h, ho]
  rfl

theorem exec_cvtConrelres_some (h : s.err = .none) {r b : Rat} (ho : conrelresOperands raw rng = some (r, b)) :
    exec (.cvtConrelres raw rng) s = writeInt (chooseLog r b s).1 { s with draws := (chooseLog r b s).2.draws } := by
  rw [exec_cvtConrelres, execCvtConrelres, unlessFaulted_running h, ho, ← chooseLog_state]

theorem conrelresOperands_eq {x : Number} {spec : RangeSpec} {r b : Rat} (hx : decimal? raw = some x)
    (hs : conrelresSpec? rng = some spec) (hr : r = x.val / spec.min) (hb : b = 1 + 2 * spec.res / 100) :
    conrelresOperands raw rng = if spec.min = 0 ∨ r ≤ 0 ∨ b ≤ 0 ∨ b = 1 then none else some (r, b) := by
  rw [conrelresOperands, hx, hs, hr, hb]

theorem conrelresOperands_eq_none (h : decimal? raw = none ∨ conrelresSpec? rng = none) :
    conrelresOperands raw rng = none := by
  rw [conrelresOperands]
  rcases h with h | h
  · rw [h]
  · rw [h]
    cases decimal? raw <;> rfl

/-! `CVT.SINGLE` -/

theorem NumberText.mag_nonneg {t : Text} {x : Number} (h : NumberText t x) : 0 ≤ x.mag := by
  obtain ⟨sign, whole, point, frac, exp, e, -, -, -, -, -, -, -, -, hm⟩ := h
  rw [hm]
  positivity

theorem decimal?_mag_nonneg {t : Text} {x : Number} (h : decimal? t = some x) : 0 ≤ x.mag :=
  ((number?_iff _ _).mp h).mag_nonneg

/-- Bit 31 is the sign, because the pattern of the magnitude fits the bits below it (R96). -/
theorem single_word (neg : Bool) {q : ℚ} (h : 0 ≤ q) :
    (BitVec.ofNat 32 (single neg q)).getLsbD 31 = neg ∧
      (BitVec.ofNat 32 (single neg q)).toNat % 2 ^ 31 = singleMag q := by
  have hq := singleMag_le q h
  have hb : (single neg q).testBit 31 = neg := by
    rw [single, Nat.testBit_eq_decide_div_mod_eq]
    cases neg
    · simp only [Bool.false_eq_true, if_false, decide_eq_false_iff_not]
      omega
    · simp only [if_true, decide_eq_true_eq]
      omega
  refine ⟨by rw [BitVec.getLsbD_ofNat, hb]; rfl, ?_⟩
  rw [BitVec.toNat_ofNat, single]
  cases neg
  · rw [if_neg Bool.false_ne_true]
    omega
  · rw [if_pos rfl]
    omega

end

/-! ## The conversions' statements -/

/-- Settles O24: the lanes of the sum do not meet, and `VAL` takes the first 32 bits. -/
theorem chr5FillsTheLanes : Obligations.Chr5FillsTheLanes := by
  intro s raw rng
  refine ⟨rfl, exec_convert_faulted rfl, fun h => ⟨BitVec.ofNat 32 (chr5 raw), ?_, fun j hj => ?_⟩⟩
  · rw [exec_cvtChr5, execCvtChr5, unlessFaulted_running h, writeBits_natCast]
  · rw [BitVec.getLsbD_ofNat, chr5_testBit, decide_eq_true hj, Bool.true_and]

/-- Settles O23: the integer is the one R7's truncation gives. -/
theorem unintWritesTheTruncatedNumber : Obligations.UnintWritesTheTruncatedNumber := by
  intro s raw rng
  refine ⟨rfl, exec_convert_faulted rfl, fun h => ⟨fun hd => ?_, fun x hx => ⟨truncRat x.val, ?_⟩⟩⟩
  · rw [exec_cvtUnint, execCvtUnint, unlessFaulted_running h, hd]
    rfl
  · obtain ⟨h1, h2, h3⟩ := truncRat_spec x.val
    rw [exec_cvtUnint_some h hx]
    exact ⟨h1, h2, h3, writeInt_spec _ s⟩

/-- Settles O30: the quotient of R91 is none in the parse errors and otherwise rounds to the integer written. -/
theorem conresWritesTheIndex : Obligations.ConresWritesTheIndex := by
  intro s raw rng
  refine ⟨rfl, exec_convert_faulted rfl, fun h => ⟨fun hd => ?_, fun hd => ?_, fun x spec hx hs =>
    ⟨fun h0 => ?_, ?_⟩⟩⟩
  · exact exec_cvtConres_none h (conresQuotient_eq_none (.inl hd))
  · exact exec_cvtConres_none h (conresQuotient_eq_none (.inr hd))
  · exact exec_cvtConres_none h ((conresQuotient_eq hx hs).trans (if_pos h0))
  · rintro h0 n rfl
    rw [exec_cvtConres_some h ((conresQuotient_eq hx hs).trans (if_neg h0))]
    exact writeInt_spec _ s

/-- Settles O34: the operands of R94 are none in the parse errors, and otherwise the chosen integer is written. -/
theorem conrelresWritesTheIndex : Obligations.ConrelresWritesTheIndex := by
  intro s raw rng
  refine ⟨rfl, exec_convert_faulted rfl, fun h => ⟨fun hd => ?_, fun hd => ?_, fun x spec r b hx hs hr hb => ?_⟩⟩
  · exact exec_cvtConrelres_none h (conrelresOperands_eq_none (.inl hd))
  · exact exec_cvtConrelres_none h (conrelresOperands_eq_none (.inr hd))
  have ho := conrelresOperands_eq hx hs hr hb
  refine ⟨fun h0 => exec_cvtConrelres_none h (ho.trans (if_pos h0)), ?_⟩
  rintro h0 hr0 hb0 hb1 n rfl
  have hn : ¬(spec.min = 0 ∨ r ≤ 0 ∨ b ≤ 0 ∨ b = 1) := by
    simp [h0, hb1, hr0, hb0]
  rw [exec_cvtConrelres_some h (ho.trans (if_neg hn))]
  obtain ⟨hin, hout⟩ := writeInt_spec (chooseLog r b s).1 { s with draws := (chooseLog r b s).2.draws }
  exact ⟨fun hr => ⟨_, hin hr, rfl⟩, hout⟩

/-- Settles O35: the sign and the magnitude's pattern stand in separate bits. -/
theorem singleWritesThePattern : Obligations.SingleWritesThePattern := by
  intro s raw rng
  refine ⟨rfl, exec_convert_faulted rfl, fun h => ⟨fun hd => ?_, fun x hx =>
    ⟨BitVec.ofNat 32 (single x.neg x.mag), ?_, single_word x.neg (decimal?_mag_nonneg hx)⟩⟩⟩
  · rw [exec_cvtSingle, execCvtSingle, unlessFaulted_running h, hd]
    rfl
  · rw [exec_cvtSingle, execCvtSingle, unlessFaulted_running h, hx, ← writeBits_natCast]

/-- Settles O37: the only statement after R188's line raises the error. -/
theorem unrecRaisesUnrecognizedType : Obligations.UnrecRaisesUnrecognizedType := by
  intro s tag7 raw rng
  refine ⟨by cases tag7 <;> rfl, fun h => ?_, exec_convert_faulted rfl⟩
  rw [exec_cvtUnrec, execCvtUnrec, unlessFaulted_running h]
  rfl

end Sys2Proof.Machine

namespace Sys2Proof.Machine

/-! ## The calendar (R87) -/

theorem leapYear_iff (y : Nat) : leapYear y = true ↔ y % 4 = 0 ∧ (y % 100 ≠ 0 ∨ y % 400 = 0) := by
  simp [leapYear]

theorem Date.valid_iff (d : Date) :
    d.valid = true ↔ 1 ≤ d.m ∧ d.m ≤ 12 ∧ 1 ≤ d.d ∧ d.d ≤ monthDays d.y d.m := by
  simp [Date.valid]

theorem monthDays_bounds (y m : Nat) : 1 ≤ monthDays y m ∧ monthDays y m ≤ 31 := by
  unfold monthDays
  split_ifs <;> omega

/-- R87's count without the eras: the days of the years from March to March, the leap days among them, and the days
of the year's months before this one. -/
theorem dayCount_eq (t : Date) (Y mp : Int) (hY : Y = t.y - (if t.m ≤ 2 then 1 else 0))
    (hmp : mp = ((t.m : Int) + 9) % 12) :
    dayCount t = 365 * Y + Y / 4 - Y / 100 + Y / 400 + (153 * mp + 2) / 5 + t.d - 719469 := by
  simp only [dayCount, ← hY, ← hmp]
  omega

theorem dayCount_next_day (y m d : Nat) : dayCount ⟨y, m, d + 1⟩ = dayCount ⟨y, m, d⟩ + 1 := by
  simp only [dayCount_eq _ _ _ rfl rfl]
  push_cast
  ring

/-- March begins R87's year: the day before it is the leap day where there is one. -/
theorem dayCount_march (y : Nat) : dayCount ⟨y, 3, 1⟩ = dayCount ⟨y, 2, monthDays y 2⟩ + 1 := by
  have hd : (monthDays y 2 : Int) =
      28 + (y / 4 - y / 100 + y / 400) - ((y - 1) / 4 - (y - 1) / 100 + (y - 1) / 400 : Int) := by
    simp only [monthDays, leapYear_iff, if_true]
    split_ifs <;> omega
  rw [dayCount_eq ⟨y, 3, 1⟩ y 0 (by simp) (by norm_num), dayCount_eq _ (y - 1) 11 (by simp) (by norm_num)]
  dsimp only
  omega

/-- The first of a month is the day after the last of the month before it. -/
theorem dayCount_next_month {y m : Nat} (h1 : 1 ≤ m) (h2 : m < 12) :
    dayCount ⟨y, m + 1, 1⟩ = dayCount ⟨y, m, monthDays y m⟩ + 1 := by
  rcases eq_or_ne m 2 with rfl | hm
  · exact dayCount_march y
  · have hY : (if m + 1 ≤ 2 then 1 else 0 : Int) = if m ≤ 2 then 1 else 0 := by grind
    simp only [dayCount_eq _ _ _ rfl rfl, hY]
    interval_cases m <;> simp [monthDays] at hm ⊢ <;> ring

theorem dayCount_next_year (y : Nat) : dayCount ⟨y + 1, 1, 1⟩ = dayCount ⟨y, 12, 31⟩ + 1 := by
  simp only [dayCount_eq _ _ _ rfl rfl]
  push_cast
  norm_num
  ring

theorem Date.valid_nextDate {d : Date} (h : d.valid = true) : (nextDate d).valid = true := by
  obtain ⟨h1, h2, h3, h4⟩ := d.valid_iff.mp h
  unfold nextDate
  split_ifs with hd hm
  · exact (Date.valid_iff _).mpr ⟨h1, h2, Nat.le_add_left 1 _, hd⟩
  · exact (Date.valid_iff _).mpr ⟨Nat.le_add_left 1 _, hm, le_rfl, (monthDays_bounds _ _).1⟩
  · exact (Date.valid_iff _).mpr ⟨le_rfl, Nat.le_add_left 1 11, le_rfl, (monthDays_bounds _ _).1⟩

theorem Date.dayCount_nextDate {d : Date} (h : d.valid = true) : dayCount (nextDate d) = dayCount d + 1 := by
  obtain ⟨h1, h2, h3, h4⟩ := d.valid_iff.mp h
  obtain ⟨y, m, day⟩ := d
  unfold nextDate
  simp only at h1 h2 h4 ⊢
  split_ifs with hd hm
  · exact dayCount_next_day y m day
  · obtain rfl : day = monthDays y m := by omega
    exact dayCount_next_month h1 hm
  · obtain rfl : m = 12 := by omega
    obtain rfl : day = 31 := le_antisymm h4 (not_lt.mp hd)
    exact dayCount_next_year y

/-- Settles O26: inside a month, at its end and at the year's end the count goes on by one. -/
theorem dayCountFollowsTheCalendar : Obligations.DayCountFollowsTheCalendar :=
  ⟨by decide, by decide, fun _ h => ⟨Date.valid_nextDate h, Date.dayCount_nextDate h⟩⟩

/-- The days of the years from March to March grow with the year. -/
theorem yearDays_bounds {Y : Int} (h0 : -1 ≤ Y) (h1 : Y ≤ 9999) :
    365 * Y + Y / 4 - Y / 100 + Y / 400 ≤ 3652059 ∧ -366 ≤ 365 * Y + Y / 4 - Y / 100 + Y / 400 ∧
      (Y ≤ 9998 → 365 * Y + Y / 4 - Y / 100 + Y / 400 ≤ 3651694) ∧
      (0 ≤ Y → 0 ≤ 365 * Y + Y / 4 - Y / 100 + Y / 400) := by
  omega

/-- R89: the dates of four-digit years lie in the range that its first and last day span. -/
theorem dayCount_range {d : Date} (h : d.valid = true) (hy : d.y ≤ 9999) :
    -729755 ≤ dayCount d - 10227 ∧ dayCount d - 10227 ≤ 2922669 := by
  obtain ⟨h1, h2, h3, h4⟩ := d.valid_iff.mp h
  have h31 := (monthDays_bounds d.y d.m).2
  rw [dayCount_eq d _ _ rfl rfl]
  rcases le_or_gt d.m 2 with hm | hm
  · rw [if_pos hm]
    have := yearDays_bounds (Y := d.y - 1) (by omega) (by omega)
    omega
  · rw [if_neg (by omega)]
    have := yearDays_bounds (Y := d.y - 0) (by omega) (by omega)
    omega

/-! ## Decimal numbers and dates as texts (R82, R88) -/

/-- A text with the spaces around it cut off: where a reading asks for a text without outer spaces, the spaces may be
there or not. -/
theorem trim_iff {P : Text → Prop} (hP : ∀ u, P u → Trimmed u) (t : Text) :
    P (trim t) ↔ ∃ a b u, t = spaces a ++ u ++ spaces b ∧ P u := by
  constructor
  · intro h
    obtain ⟨-, a, b, e⟩ := trim_spec t
    exact ⟨a, b, trim t, e, h⟩
  · rintro ⟨a, b, u, rfl, h⟩
    rwa [trim_spaces (hP u h)]

/-- Settles O20: the outer spaces are cut off, and the rest is R82's number. -/
theorem decimalGrammar : Obligations.DecimalGrammar := fun t x =>
  (number?_iff (trim t) x).trans (trim_iff (fun _ h => (NumberText.token h).trimmed) t)

theorem isDigit_iff (c : Byte) : isDigit c = true ↔ ∃ k < 10, c = BitVec.ofNat 8 (0x30 + k) := by
  simp only [isDigit, Bool.and_eq_true, decide_eq_true_eq]
  constructor
  · rintro ⟨h1, h2⟩
    exact ⟨c.toNat - 0x30, by omega, by rw [Nat.add_sub_cancel' h1, BitVec.ofNat_toNat, BitVec.setWidth_eq]⟩
  · rintro ⟨k, hk, rfl⟩
    rw [BitVec.toNat_ofNat]
    omega

theorem twoDigits_of_digits {a b : Byte} (ha : isDigit a = true) (hb : isDigit b = true) :
    digitsVal [a, b] < 100 ∧ twoDigits (digitsVal [a, b]) = [a, b] := by
  obtain ⟨j, hj, rfl⟩ := (isDigit_iff a).mp ha
  obtain ⟨k, hk, rfl⟩ := (isDigit_iff b).mp hb
  revert j k
  decide

theorem digitsVal_twoDigits {n : Nat} (h : n < 100) :
    digitsVal (twoDigits n) = n ∧ (twoDigits n).all isDigit = true := by
  revert n
  decide

/-- The digits of the century and of the year in it. -/
theorem digitsVal_four (a b c d : Byte) : digitsVal [a, b, c, d] = 100 * digitsVal [a, b] + digitsVal [c, d] := by
  simp only [digitsVal, List.foldl]
  omega

/-- R88: the ten characters of a date are eight digits, which name its numbers, and two hyphens. -/
theorem dateText_iff (d : Date) (u : Text) :
    (d.y < 10000 ∧ d.m < 100 ∧ d.d < 100 ∧ u = dateText d) ↔
      ∃ y3 y2 y1 y0 m1 m0 d1 d0, u = [y3, y2, y1, y0, 0x2D, m1, m0, 0x2D, d1, d0] ∧
        [y3, y2, y1, y0, m1, m0, d1, d0].all isDigit = true ∧
        d = ⟨digitsVal [y3, y2, y1, y0], digitsVal [m1, m0], digitsVal [d1, d0]⟩ := by
  constructor
  · rintro ⟨hy, hm, hd, rfl⟩
    obtain ⟨ey, ay⟩ := digitsVal_twoDigits (n := d.y / 100) (by omega)
    obtain ⟨ez, az⟩ := digitsVal_twoDigits (n := d.y % 100) (by omega)
    obtain ⟨em, am⟩ := digitsVal_twoDigits hm
    obtain ⟨ed, ad⟩ := digitsVal_twoDigits hd
    unfold twoDigits at *
    refine ⟨_, _, _, _, _, _, _, _, rfl, ?_, ?_⟩
    · simp only [List.all_cons, List.all_nil, Bool.and_true, Bool.and_eq_true] at ay az am ad ⊢
      exact ⟨ay.1, ay.2, az.1, az.2, am.1, am.2, ad.1, ad.2⟩
    · rw [digitsVal_four, ey, ez, em, ed, Nat.div_add_mod]
  · rintro ⟨y3, y2, y1, y0, m1, m0, d1, d0, rfl, ha, rfl⟩
    simp only [List.all_cons, List.all_nil, Bool.and_true, Bool.and_eq_true] at ha
    obtain ⟨a3, a2, a1, a0, b1, b0, c1, c0⟩ := ha
    obtain ⟨ly, ty⟩ := twoDigits_of_digits a3 a2
    obtain ⟨lz, tz⟩ := twoDigits_of_digits a1 a0
    obtain ⟨lm, tm⟩ := twoDigits_of_digits b1 b0
    obtain ⟨ld, td⟩ := twoDigits_of_digits c1 c0
    refine ⟨by simp only [digitsVal_four]; omega, lm, ld, ?_⟩
    have hq : (100 * digitsVal [y3, y2] + digitsVal [y1, y0]) / 100 = digitsVal [y3, y2] := by omega
    have hr : (100 * digitsVal [y3, y2] + digitsVal [y1, y0]) % 100 = digitsVal [y1, y0] := by omega
    simp only [dateText, digitsVal_four, hq, hr, ty, tz, tm, td, List.cons_append, List.nil_append]

/-- R88: the text of a date that exists, in the years that four digits can name. -/
def IsDateText (d : Date) (u : Text) : Prop := d.y ≤ 9999 ∧ d.valid = true ∧ u = dateText d

theorem isDateText_iff (d : Date) (u : Text) :
    IsDateText d u ↔ d.valid = true ∧
      ∃ y3 y2 y1 y0 m1 m0 d1 d0, u = [y3, y2, y1, y0, 0x2D, m1, m0, 0x2D, d1, d0] ∧
        [y3, y2, y1, y0, m1, m0, d1, d0].all isDigit = true ∧
        d = ⟨digitsVal [y3, y2, y1, y0], digitsVal [m1, m0], digitsVal [d1, d0]⟩ := by
  rw [← dateText_iff, IsDateText, Date.valid_iff]
  have := monthDays_bounds d.y d.m
  constructor
  · rintro ⟨hy, ⟨h1, h2, h3, h4⟩, hu⟩
    exact ⟨⟨h1, h2, h3, h4⟩, by omega, by omega, by omega, hu⟩
  · rintro ⟨hv, hy, -, -, hu⟩
    exact ⟨by omega, hv, hu⟩

theorem IsDateText.trimmed {d : Date} {u : Text} (h : IsDateText d u) : Trimmed u := by
  obtain ⟨-, y3, y2, y1, y0, m1, m0, d1, d0, rfl, ha, -⟩ := (isDateText_iff d u).mp h
  simp only [List.all_cons, Bool.and_eq_true] at ha
  have digit_not_space {c : Byte} (hc : isDigit c = true) : isSpace c = false := by
    simpa [isSpace] using (digit_ne hc).2.2.2
  obtain ⟨a3, -, -, -, -, -, -, c0, -⟩ := ha
  exact ⟨by simpa using digit_not_space a3, by simpa using digit_not_space c0⟩

/-- The reading of R88 once the spaces are cut off. -/
theorem date?_eq_some_iff (t : Text) (d : Date) : date? t = some d ↔ IsDateText d (trim t) := by
  rw [isDateText_iff, date?]
  constructor
  · intro h
    split at h
    next y3 y2 y1 y0 h1 m1 m0 h2 d1 d0 e =>
      simp only at h
      split_ifs at h with hc
      obtain ⟨ha, rfl, rfl, hv⟩ := hc
      cases h
      exact ⟨hv, y3, y2, y1, y0, m1, m0, d1, d0, e, ha, rfl⟩
    next => cases h
  · rintro ⟨hv, y3, y2, y1, y0, m1, m0, d1, d0, e, ha, rfl⟩
    simp only [e, true_and]
    exact if_pos ⟨ha, hv⟩

/-- Settles O25: the outer spaces are cut off, and the rest is a date's ten characters. -/
theorem dateGrammar : Obligations.DateGrammar := by
  intro t d
  rw [date?_eq_some_iff, trim_iff (P := IsDateText d) fun _ h => h.trimmed]
  simp only [IsDateText, Date.valid_iff]
  constructor
  · rintro ⟨a, b, u, e, hy, ⟨h1, h2, h3, h4⟩, rfl⟩
    exact ⟨hy, h1, h2, h3, h4, a, b, e⟩
  · rintro ⟨hy, h1, h2, h3, h4, a, b, e⟩
    exact ⟨a, b, _, e, hy, ⟨h1, h2, h3, h4⟩, rfl⟩

/-- Settles O27: a date text's date exists and has a four-digit year, so its number of days fits. -/
theorem dateWritesTheDayNumber : Obligations.DateWritesTheDayNumber := by
  intro s raw rng
  refine ⟨rfl, exec_convert_faulted rfl, fun h => ⟨fun hd => ?_, fun d hd => ?_⟩⟩
  · rw [exec_cvtDate, execCvtDate, unlessFaulted_running h, hd]
    rfl
  · obtain ⟨hy, hv, -⟩ := (date?_eq_some_iff raw d).mp hd
    obtain ⟨hlo, hhi⟩ := dayCount_range hv hy
    refine ⟨hlo, hhi, ?_⟩
    rw [exec_cvtDate, execCvtDate, unlessFaulted_running h, hd]
    rfl

end Sys2Proof.Machine

namespace Sys2Proof.Machine

/-! ## Range specs (R90, R93) -/

/-- The text of some tokens with at least one space between them and any after the last. -/
def Spaced : List Text → Text → Prop
  | [], u => ∃ n, u = spaces n
  | [w], u => ∃ n, u = w ++ spaces n
  | w :: w' :: ws, u => ∃ n v, u = w ++ spaces (n + 1) ++ v ∧ Spaced (w' :: ws) v

theorem spaces_add (a b : Nat) : spaces (a + b) = spaces a ++ spaces b := List.replicate_add a b _

theorem Spaced.words {ws : List Text} {u : Text} (h : Spaced ws u) (ht : ∀ w ∈ ws, Token w) : words u = ws := by
  fun_induction Spaced ws u with
  | case1 u =>
    obtain ⟨n, rfl⟩ := h
    rw [← List.append_nil (spaces n), words_spaces]
    rfl
  | case2 w u =>
    obtain ⟨n, rfl⟩ := h
    exact words_last (ht w (by simp)) n
  | case3 w w' ws u ih =>
    obtain ⟨n, v, rfl, hv⟩ := h
    rw [words_token (ht w (by simp)), ih v hv fun x hx => ht x (by simp [hx])]

/-- What `words` reads: the tokens are those the text has, with any spaces before the first. -/
theorem words_iff (t : Text) (ws : List Text) :
    words t = ws ↔ (∀ w ∈ ws, Token w) ∧ ∃ a u, t = spaces a ++ u ∧ Spaced ws u := by
  constructor
  · intro h
    induction ws generalizing t with
    | nil =>
      obtain ⟨a, rfl⟩ := words_nil h
      exact ⟨by simp, a, [], by simp, 0, rfl⟩
    | cons w ws ih =>
      obtain ⟨hw, a, ⟨rfl, rfl⟩ | ⟨r, rfl, hr⟩⟩ := words_cons h
      · exact ⟨by simpa using hw, a, w, rfl, 0, by simp [spaces]⟩
      · obtain ⟨ht, b, u, rfl, hu⟩ := ih r hr
        refine ⟨by simpa [hw] using ht, a, w ++ spaces (b + 1) ++ u, ?_, ?_⟩
        · rw [Nat.add_comm b 1, spaces_add]
          simp
        · cases ws with
          | nil =>
            obtain ⟨n, rfl⟩ := hu
            exact ⟨b + 1 + n, by rw [spaces_add (b + 1)]; simp⟩
          | cons w' ws => exact ⟨b, u, rfl, hu⟩
  · rintro ⟨ht, a, u, rfl, hu⟩
    rw [words_spaces]
    exact hu.words ht

theorem rangeSpec?_eq_some_iff (lo kw hi res : Text) (spec : RangeSpec) :
    rangeSpec? lo kw hi res = some spec ↔ kw = [0x74, 0x6F] ∧ ∃ x y z, NumberText lo x ∧ NumberText hi y ∧
      NumberText res z ∧ spec = ⟨x.val, y.val, z.val⟩ := by
  constructor
  · intro h
    unfold rangeSpec? at h
    split_ifs at h with hk
    split at h
    next x y z hx hy hz =>
      cases h
      exact ⟨hk, x, y, z, (number?_iff _ _).mp hx, (number?_iff _ _).mp hy, (number?_iff _ _).mp hz, rfl⟩
    next => cases h
  · rintro ⟨rfl, x, y, z, hx, hy, hz, rfl⟩
    rw [rangeSpec?, if_pos rfl, (number?_iff _ _).mpr hx, (number?_iff _ _).mpr hy, (number?_iff _ _).mpr hz]

theorem percent?_eq_some_iff (t res : Text) : percent? t = some res ↔ t = [0xB1] ++ res ++ [0x25] := by
  cases t with
  | nil => simp [percent?]
  | cons c t =>
    constructor
    · intro h
      simp only [percent?] at h
      split_ifs at h with hc
      obtain ⟨rfl, hl⟩ := hc
      cases h
      rw [List.append_assoc, List.dropLast_append_getLast? _ hl]
      rfl
    · intro h
      obtain ⟨rfl, rfl⟩ := List.cons.inj h
      simp [percent?]

/-- The keyword of R90 and R93. -/
theorem token_to : Token [0x74, 0x6F] := by
  unfold Token
  decide

/-- The keyword of R90. -/
theorem token_step : Token [0x73, 0x74, 0x65, 0x70] := by
  unfold Token
  decide

theorem Token.percent {w : Text} (h : Token w) : Token ([0xB1] ++ w ++ [0x25]) := by
  refine ⟨by simp, fun c hc => ?_⟩
  simp only [List.mem_append, List.mem_singleton] at hc
  rcases hc with (rfl | hc) | rfl
  · rfl
  · exact h.2 c hc
  · rfl

/-- The tokens of a `CONRES` range spec (R90). -/
theorem conresSpec?_eq_some_iff (t : Text) (spec : RangeSpec) :
    conresSpec? t = some spec ↔ ∃ lo hi res x y z, words t = [lo, [0x74, 0x6F], hi, [0x73, 0x74, 0x65, 0x70], res] ∧
      NumberText lo x ∧ NumberText hi y ∧ NumberText res z ∧ spec = ⟨x.val, y.val, z.val⟩ := by
  constructor
  · intro h
    unfold conresSpec? at h
    split at h
    next lo kw hi st res e =>
      split_ifs at h with hst
      obtain ⟨rfl, x, y, z, hn⟩ := (rangeSpec?_eq_some_iff _ _ _ _ _).mp h
      exact ⟨lo, hi, res, x, y, z, hst ▸ e, hn⟩
    next => cases h
  · rintro ⟨lo, hi, res, x, y, z, e, hn⟩
    rw [conresSpec?, e]
    exact (rangeSpec?_eq_some_iff _ _ _ _ _).mpr ⟨rfl, x, y, z, hn⟩

/-- The tokens of a `CONRELRES` range spec (R93). -/
theorem conrelresSpec?_eq_some_iff (t : Text) (spec : RangeSpec) :
    conrelresSpec? t = some spec ↔ ∃ lo hi pct x y z, words t = [lo, [0x74, 0x6F], hi, [0xB1] ++ pct ++ [0x25]] ∧
      NumberText lo x ∧ NumberText hi y ∧ NumberText pct z ∧ spec = ⟨x.val, y.val, z.val⟩ := by
  constructor
  · intro h
    unfold conrelresSpec? at h
    split at h
    next lo kw hi pc e =>
      obtain ⟨pct, hp, h⟩ := Option.bind_eq_some_iff.mp h
      obtain ⟨rfl, x, y, z, hn⟩ := (rangeSpec?_eq_some_iff _ _ _ _ _).mp h
      exact ⟨lo, hi, pct, x, y, z, (percent?_eq_some_iff _ _).mp hp ▸ e, hn⟩
    next => cases h
  · rintro ⟨lo, hi, pct, x, y, z, e, hn⟩
    rw [conrelresSpec?, e]
    simp only [(percent?_eq_some_iff _ pct).mpr rfl, Option.bind_some]
    exact (rangeSpec?_eq_some_iff _ _ _ _ _).mpr ⟨rfl, x, y, z, hn⟩

/-- Settles O28: a range spec is read by its tokens, and every spacing of the tokens is read. -/
theorem conresGrammar : Obligations.ConresGrammar := by
  intro t spec
  rw [conresSpec?_eq_some_iff]
  constructor
  · rintro ⟨lo, hi, st, x, y, z, e, hn⟩
    obtain ⟨-, a, u, rfl, b, u, rfl, c, u, rfl, d, u, rfl, k, u, rfl, f, rfl⟩ := (words_iff _ _).mp e
    exact ⟨lo, hi, st, x, y, z, a, b, c, d, k, f, by simp only [List.append_assoc], hn⟩
  · rintro ⟨lo, hi, st, x, y, z, a, b, c, d, k, f, rfl, hx, hy, hz, hs⟩
    refine ⟨lo, hi, st, x, y, z, (words_iff _ _).mpr
      ⟨?_, a, _, ?_, b, _, rfl, c, _, rfl, d, _, rfl, k, _, rfl, f, rfl⟩, hx, hy, hz, hs⟩
    · simp only [List.forall_mem_cons, List.not_mem_nil, false_imp_iff, implies_true, and_true]
      exact ⟨hx.token, token_to, hy.token, token_step, hz.token⟩
    · simp only [List.append_assoc]

/-- Settles O29: a range spec is read by its tokens, the last of them with the number between its two marks. -/
theorem conrelresGrammar : Obligations.ConrelresGrammar := by
  intro t spec
  rw [conrelresSpec?_eq_some_iff]
  constructor
  · rintro ⟨lo, hi, pct, x, y, z, e, hn⟩
    obtain ⟨-, a, u, rfl, b, u, rfl, c, u, rfl, d, u, rfl, k, rfl⟩ := (words_iff _ _).mp e
    exact ⟨lo, hi, pct, x, y, z, a, b, c, d, k, by simp only [List.append_assoc], hn⟩
  · rintro ⟨lo, hi, pct, x, y, z, a, b, c, d, k, rfl, hx, hy, hz, hs⟩
    refine ⟨lo, hi, pct, x, y, z, (words_iff _ _).mpr
      ⟨?_, a, _, ?_, b, _, rfl, c, _, rfl, d, _, rfl, k, rfl⟩, hx, hy, hz, hs⟩
    · simp only [List.forall_mem_cons, List.not_mem_nil, false_imp_iff, implies_true, and_true]
      exact ⟨hx.token, token_to, hy.token, hz.token.percent⟩
    · simp only [List.append_assoc]

end Sys2Proof.Machine

namespace Sys2Proof.Machine

/-! ## The logarithm compared by powers is that of the real numbers (R94, R95) -/

theorem log_natCast_bounds {n : Nat} (h : 0 < n) :
    0 ≤ Real.log n ∧ Real.log n ≤ (Nat.log2 n + 1 : ℕ) * Real.log 2 := by
  refine ⟨Real.log_natCast_nonneg n, ?_⟩
  rw [← Real.log_pow]
  exact Real.log_le_log (by exact_mod_cast h) (by exact_mod_cast (Nat.lt_log2_self (n := n)).le)

theorem abs_log_ratio_le {r : ℚ} (h : 0 < r) :
    |Real.log (r : ℝ)| ≤ (Nat.log2 r.num.toNat + Nat.log2 r.den + 2 : ℕ) * Real.log 2 := by
  obtain ⟨e, hn⟩ := ratFraction h
  obtain ⟨u0, u1⟩ := log_natCast_bounds hn
  obtain ⟨v0, v1⟩ := log_natCast_bounds r.den_pos
  rw [← e, Real.log_div (by exact_mod_cast hn.ne') (by exact_mod_cast r.den_ne_zero), abs_le]
  push_cast at u1 v1 ⊢
  constructor <;> linarith

/-- A rational number above 1 is at least one unit of its denominator above it. -/
theorem one_add_inv_den_le {b : ℚ} (h : 1 < b) : 1 + 1 / (b.den : ℚ) ≤ b := by
  have hd : (0 : ℚ) < b.den := by exact_mod_cast b.den_pos
  have hlt : (b.den : ℚ) < b.num := by
    rw [← Rat.mul_den_eq_num]
    exact lt_mul_of_one_lt_left hd h
  have hle : (b.den : ℚ) + 1 ≤ b.num := by
    have : (b.den : ℤ) < b.num := by exact_mod_cast hlt
    exact_mod_cast this
  rw [← Rat.mul_den_eq_num] at hle
  refine le_of_mul_le_mul_right ?_ hd
  rwa [add_mul, one_mul, one_div_mul_cancel hd.ne']

/-- So its power `den` is at least 2, by Bernoulli's inequality. -/
theorem log_two_le_den_mul_log {b : ℚ} (h : 1 < b) : Real.log 2 ≤ b.den * Real.log (b : ℝ) := by
  have hd : (0 : ℚ) < 1 / b.den := one_div_pos.mpr (by exact_mod_cast b.den_pos)
  have h2 : (2 : ℚ) ≤ b ^ b.den := by
    calc (2 : ℚ) = 1 + b.den * (1 / b.den) := by
          rw [mul_one_div_cancel (by exact_mod_cast b.den_ne_zero)]
          norm_num
      _ ≤ (1 + 1 / b.den) ^ b.den := one_add_mul_le_pow (by linarith) _
      _ ≤ b ^ b.den := pow_le_pow_left₀ (by linarith) (one_add_inv_den_le h) _
  rw [← Real.log_pow]
  exact Real.log_le_log two_pos (by exact_mod_cast h2)

theorem abs_le_natAbs_num (c : ℚ) : |c| ≤ c.num.natAbs := by
  have hd : (1 : ℚ) ≤ c.den := by exact_mod_cast c.den_pos
  calc |c| ≤ |c| * c.den := le_mul_of_one_le_right (abs_nonneg c) hd
    _ = |(c.num : ℚ)| := by rw [← Rat.mul_den_eq_num, abs_mul, Nat.abs_cast]
    _ = c.num.natAbs := by rw [Nat.cast_natAbs, Int.cast_abs]

/-- R95: comparing whole powers compares the logarithms. -/
theorem zpow_le_pow_iff_le_log {r b : ℝ} (hr : 0 < r) (hb : 1 < b) (c : ℚ) (k : ℤ) :
    b ^ (k * c.den - c.num) ≤ r ^ c.den ↔ (k : ℝ) ≤ Real.log r / Real.log b + c := by
  have hd : (0 : ℝ) < c.den := by exact_mod_cast c.den_pos
  have hl := Real.log_pos hb
  rw [← Real.log_le_log_iff (by positivity) (by positivity), Real.log_zpow, Real.log_pow, Rat.cast_def,
    ← sub_le_iff_le_add, le_div_iff₀ hl]
  have e : ((k * c.den - c.num : ℤ) : ℝ) * Real.log b = c.den * ((k - c.num / c.den) * Real.log b) := by
    push_cast
    field_simp
  rw [e, mul_le_mul_iff_right₀ hd]

/-- R95: `powLe` of the numerators and denominators asks for the logarithm's bound. -/
theorem powLe_ratios_iff {r b : ℚ} (hr : 0 < r) (hb : 1 < b) (c : ℚ) (k : ℤ) :
    powLe b.num.toNat b.den r.num.toNat r.den (k * c.den - c.num) c.den = true ↔
      (k : ℝ) ≤ Real.log (r : ℝ) / Real.log (b : ℝ) + c := by
  obtain ⟨er, -⟩ := ratFraction hr
  obtain ⟨eb, hn⟩ := ratFraction (one_pos.trans hb)
  rw [powLe_iff hn b.den_pos r.den_pos, er, eb]
  exact zpow_le_pow_iff_le_log (by exact_mod_cast hr) (by exact_mod_cast hb) c k

/-- The logarithm lies inside the range that `floorLogUp` searches. -/
theorem abs_log_quotient_lt {r b : ℚ} (hr : 0 < r) (hb : 1 < b) (c : ℚ) :
    |Real.log (r : ℝ) / Real.log (b : ℝ) + c| <
      2 ^ (Nat.log2 (b.den * (Nat.log2 r.num.toNat + Nat.log2 r.den + 2) + c.num.natAbs + 1) + 1) := by
  have hl : 0 < Real.log (b : ℝ) := Real.log_pos (by exact_mod_cast hb)
  have hq : |Real.log (r : ℝ) / Real.log (b : ℝ)| ≤ b.den * (Nat.log2 r.num.toNat + Nat.log2 r.den + 2 : ℕ) := by
    rw [abs_div, abs_of_pos hl, div_le_iff₀ hl]
    calc |Real.log (r : ℝ)| ≤ (Nat.log2 r.num.toNat + Nat.log2 r.den + 2 : ℕ) * Real.log 2 := abs_log_ratio_le hr
      _ ≤ (Nat.log2 r.num.toNat + Nat.log2 r.den + 2 : ℕ) * (b.den * Real.log (b : ℝ)) := by
        gcongr; exact log_two_le_den_mul_log hb
      _ = _ := by ring
  have hc : |(c : ℝ)| ≤ c.num.natAbs := by exact_mod_cast abs_le_natAbs_num c
  calc |Real.log (r : ℝ) / Real.log (b : ℝ) + c|
      ≤ |Real.log (r : ℝ) / Real.log (b : ℝ)| + |(c : ℝ)| := abs_add_le _ _
    _ ≤ ((b.den * (Nat.log2 r.num.toNat + Nat.log2 r.den + 2) + c.num.natAbs : ℕ) : ℝ) := by
      push_cast at hq ⊢
      linarith
    _ < _ := by exact_mod_cast (Nat.lt_succ_self _).trans Nat.lt_log2_self

theorem floorLogUp_eq {r b : ℚ} (hr : 0 < r) (hb : 1 < b) (c : ℚ) :
    floorLogUp r b c = ⌊Real.log (r : ℝ) / Real.log (b : ℝ) + c⌋ := by
  obtain ⟨hlo, hhi⟩ := abs_lt.mp (abs_log_quotient_lt hr hb c)
  have hspec := largestInt_spec (holds := fun k => powLe b.num.toNat b.den r.num.toNat r.den (k * c.den - c.num) c.den)
    (Nat.log2 (b.den * (Nat.log2 r.num.toNat + Nat.log2 r.den + 2) + c.num.natAbs + 1) + 1)
    ((powLe_ratios_iff hr hb c _).mpr (by push_cast; exact hlo.le))
    (by rw [powLe_ratios_iff hr hb c]; push_cast; exact not_le.mpr hhi)
  obtain ⟨h1, h2⟩ := hspec
  rw [powLe_ratios_iff hr hb c] at h1 h2
  refine (Int.floor_eq_iff.mpr ⟨h1, ?_⟩).symm
  push_cast at h2
  exact not_le.mp h2

/-- Settles O32: a base below 1 is turned over together with the ratio. -/
theorem floorLogIsExact : Obligations.FloorLogIsExact := by
  intro r b c hr hb hb1
  unfold floorLog
  split_ifs with h
  · exact floorLogUp_eq hr h c
  · have hlt : b < 1 := lt_of_le_of_ne (not_lt.mp h) hb1
    rw [floorLogUp_eq (inv_pos.mpr hr) ((one_lt_inv₀ hb).mpr hlt) c]
    push_cast
    rw [Real.log_inv, Real.log_inv, neg_div_neg_eq]

section
variable {r b : ℚ} (hr : 0 < r) (hb : 0 < b) (hb1 : b ≠ 1)
include hr hb hb1

theorem ceilLog_eq (c : ℚ) : ceilLog r b c = ⌈Real.log (r : ℝ) / Real.log (b : ℝ) + c⌉ := by
  rw [ceilLog, floorLogIsExact _ _ _ (inv_pos.mpr hr) hb hb1]
  push_cast
  rw [Real.log_inv, neg_div, ← neg_add, Int.floor_neg, neg_neg]

/-- R95: an exact half is where adding 1/2 gives an integer. -/
theorem logIsHalf_iff : logIsHalf r b = true ↔ ∃ m : ℤ, Real.log (r : ℝ) / Real.log (b : ℝ) = m + 1 / 2 := by
  rw [logIsHalf, decide_eq_true_eq, floorLogIsExact r b _ hr hb hb1, ceilLog_eq hr hb hb1]
  generalize Real.log (r : ℝ) / Real.log (b : ℝ) = x
  push_cast
  constructor
  · intro e
    have h1 := Int.floor_le (x + 1 / 2)
    have h2 := Int.le_ceil (x + 1 / 2)
    rw [← e] at h2
    refine ⟨⌊x + 1 / 2⌋ - 1, ?_⟩
    push_cast
    linarith
  · rintro ⟨m, rfl⟩
    rw [floor_half, show (m + 1 / 2 : ℝ) + 1 / 2 = ((m + 1 : ℤ) : ℝ) by push_cast; ring, Int.ceil_intCast]

/-- R95: the band of `EPS_LN` holds the integers whose half the quotient is within `EPS_LN` of. -/
theorem mem_lnBand_iff (eps : ℚ) (m : ℤ) : (lnBand eps r b).1 ≤ m ∧ m ≤ (lnBand eps r b).2 ↔
    |Real.log (r : ℝ) / Real.log (b : ℝ) - (m + 1 / 2)| ≤ (eps : ℝ) := by
  simp only [lnBand, floorLogIsExact r b _ hr hb hb1, ceilLog_eq hr hb hb1, Int.ceil_le, Int.le_floor, abs_le]
  push_cast
  constructor <;> rintro ⟨h1, h2⟩ <;> constructor <;> linarith

theorem roundLog_half (tie : RoundTie) {m : ℤ} (h : Real.log (r : ℝ) / Real.log (b : ℝ) = m + 1 / 2) :
    roundLog tie r b = halfRounded tie m := by
  have e := roundBy_floor_half tie h
  rw [roundLog, (logIsHalf_iff hr hb hb1).mpr ⟨m, h⟩, floorLogIsExact r b _ hr hb hb1, ← e]
  push_cast
  rfl

theorem roundLog_near (tie : RoundTie) (h : ∀ m : ℤ, Real.log (r : ℝ) / Real.log (b : ℝ) ≠ m + 1 / 2) :
    |Real.log (r : ℝ) / Real.log (b : ℝ) - roundLog tie r b| < 1 / 2 := by
  have hf : logIsHalf r b = false := Bool.eq_false_iff.mpr fun ht => by
    obtain ⟨m, hm⟩ := (logIsHalf_iff hr hb hb1).mp ht
    exact h m hm
  rw [roundLog, hf, roundBy_false, floorLogIsExact r b _ hr hb hb1]
  push_cast
  exact floor_add_half_near h

end

/-- What R95 chooses: a draw from the band, where the quotient is no half and the band is not empty, and otherwise the
rounded quotient. -/
theorem chooseLog_cases (r b : ℚ) (s : State) :
    (logIsHalf r b = false ∧ (lnBand s.params.epsLn r b).1 ≤ (chooseLog r b s).1 ∧
      (chooseLog r b s).1 ≤ (lnBand s.params.epsLn r b).2 + 1 ∧
      (lnBand s.params.epsLn r b).1 ≤ (lnBand s.params.epsLn r b).2) ∨
    ((logIsHalf r b = true ∨ (lnBand s.params.epsLn r b).2 < (lnBand s.params.epsLn r b).1) ∧
      chooseLog r b s = (roundLog s.params.roundTie r b, s)) := by
  unfold chooseLog
  simp only
  generalize lnBand s.params.epsLn r b = band
  split_ifs with h
  · obtain ⟨hh, hb⟩ := h
    have h0 := Int.emod_nonneg (Config.lnChoice s.draws : Int) (show band.2 - band.1 + 2 ≠ 0 by omega)
    have h1 := Int.emod_lt_of_pos (Config.lnChoice s.draws : Int) (show 0 < band.2 - band.1 + 2 by omega)
    exact .inl ⟨hh, by omega, by omega, hb⟩
  · refine .inr ⟨?_, rfl⟩
    by_cases hh : logIsHalf r b = true
    · exact .inl hh
    · exact .inr (not_le.mp fun hb => h ⟨Bool.eq_false_iff.mpr hh, hb⟩)

/-- Settles O33: a draw is next to a half of the band, and a quotient with an empty band, or an exact half, is rounded. -/
theorem chosenLogIsTheRoundedQuotient : Obligations.ChosenLogIsTheRoundedQuotient := by
  intro s r b hs hr hb hb1 x n
  have hband := mem_lnBand_iff hr hb hb1 s.params.epsLn
  rcases chooseLog_cases r b s with ⟨hh, hlo, hhi, hne⟩ | ⟨hno, e⟩
  · have hx : ∀ m : ℤ, x ≠ m + 1 / 2 := fun m hm => by
      rw [(logIsHalf_iff hr hb hb1).mpr ⟨m, hm⟩] at hh
      cases hh
    refine ⟨fun m hm => absurd hm (hx m), fun _ => .inr ?_, fun h => ?_⟩
    · rcases hhi.lt_or_eq with h | h
      · exact ⟨n, (hband n).mp ⟨hlo, Int.lt_add_one_iff.mp h⟩, .inl rfl⟩
      · exact ⟨_, (hband _).mp ⟨hne, le_rfl⟩, .inr h⟩
    · rcases h with ⟨m, hm⟩ | h
      · exact absurd hm (hx m)
      · exact absurd ((hband _).mp ⟨hne, le_rfl⟩) (not_le.mpr (h _))
  · have en : n = roundLog s.params.roundTie r b := congrArg Prod.fst e
    rw [en]
    exact ⟨fun m hm => roundLog_half hr hb hb1 _ hm, fun h => .inl (roundLog_near hr hb hb1 _ h),
      fun _ => congrArg Prod.snd e⟩

end Sys2Proof.Machine

namespace Sys2Proof.Machine

/-! ## `CRST` and `LDV` (R123, R124) -/

theorem exec_ldv_running {s : State} (h : s.err = .none) (imm : Word) :
    exec (.ldv imm) s = .next { s with val := some imm } := if_pos h

theorem exec_ldv_faulted {s : State} (h : s.err ≠ .none) (imm : Word) : exec (.ldv imm) s = .next s := if_neg h

/-- Settles O18: after R188's line `CRST` writes the cursor and `FIDX` and nothing else. -/
theorem crstStartsAPass : Obligations.CrstStartsAPass :=
  ⟨rfl, fun _ => ⟨fun h => if_pos h, fun h => if_neg h⟩⟩

theorem truncRat_natCast (n : Nat) : truncRat n = n :=
  (if_pos (Nat.cast_nonneg n)).trans (Int.floor_natCast (R := ℚ) n)

/-- R84: the number a 32-bit word denotes converts to that word. -/
theorem writeInt_word (imm : Word) (s : State) : writeInt imm.toNat s = .next { s with val := some imm } := by
  have hlt := imm.isLt
  rw [writeInt_in ⟨by omega, by omega⟩, BitVec.ofInt_natCast, BitVec.ofNat_toNat, BitVec.setWidth_eq]

/-- Settles O19: a decimal number that is `imm` truncates to itself and converts to the word `imm`. -/
theorem ldvLoadsVal : Obligations.LdvLoadsVal := by
  intro s imm
  refine ⟨rfl, fun h => exec_ldv_running h imm, fun h => exec_ldv_faulted h imm, fun raw rng x hx hv => ?_⟩
  by_cases h : s.err = .none
  · rw [exec_cvtUnint_some h hx, hv, truncRat_natCast, writeInt_word, exec_ldv_running h]
  · rw [exec_convert_faulted rfl h, exec_ldv_faulted h]

/-! ## The stream after bits are appended (R33, R34) -/

theorem not_packedAt_reserved {s : State} {L : Nat} (b : Nat) : ¬packedAt s L (32 * b) :=
  fun ⟨_, hm, _⟩ => hm (Nat.mul_mod_right 32 b)

section
variable {s t : State} {L v : Nat} (h : Packed s L v t)
include h

theorem Packed.bit_before {p : Nat} (hp : p < streamPos s) : streamBit t p = streamBit s p := by
  rw [h.bits (by omega) (.inl hp), packedBit, if_pos hp]

theorem Packed.bit_appended {p : Nat} (hlo : streamPos s ≤ p) (hhi : p < streamPos s + L) :
    streamBit t p = v.testBit (streamPos s + L - 1 - p) := by
  rw [h.bits (by omega) (.inr (by omega)), packedBit, if_neg (by omega), if_pos hhi]

theorem Packed.bit_after {p : Nat} (hlo : streamPos s + L ≤ p) (hp : 8 * (p / 8) < streamPos s + L) (hL : 0 < L) :
    streamBit t p = false := by
  rw [h.bits hp (.inr hL), packedBit, if_neg (by omega), if_neg (by omega)]

theorem Packed.byte_later {k : Nat} (hk : streamPos s + L ≤ 8 * k) : t.byte (dataIndex k) = s.byte (dataIndex k) :=
  h.byte_kept fun ⟨_, _, _, ha⟩ => by
    rw [dataNumber_dataIndex] at ha
    omega

theorem Packed.get?_reserved (b : Nat) : Memory.get? t.buf (32 * b) = Memory.get? s.buf (32 * b) :=
  h.kept _ (not_packedAt_reserved b)

theorem Packed.byte_reserved (b : Nat) : t.byte (32 * b) = s.byte (32 * b) := h.byte_kept (not_packedAt_reserved b)

end

/-- R120: the low bits of a value are its field's bits. -/
theorem testBit_field (v : Word) {n j : Nat} (h : j < n) : (v.toNat % 2 ^ n).testBit j = v.getLsbD j := by
  rw [Nat.testBit_mod_two_pow, decide_eq_true h, Bool.true_and, BitVec.getLsbD]

/-- R120, R128: an appended field stands in the stream with its most significant bit first. -/
theorem Packed.bit_field {s t : State} {n j : Nat} {v : Word} (h : Packed s n (v.toNat % 2 ^ n) t) (hj : j < n) :
    streamBit t (streamPos s + n - 1 - j) = v.getLsbD j := by
  rw [h.bit_appended (by omega) (by omega),
    show streamPos s + n - 1 - (streamPos s + n - 1 - j) = j by omega, testBit_field v hj]

/-! ## `APPEND` (R127, R128) -/

section
variable {s : State} {len : BitVec 6} {v : Word} (hs : s.Inv) (he : s.err = .none) (hv : s.val = some v)
  (h1 : 1 ≤ len.toNat) (h2 : len.toNat ≤ 32)
include hs he hv h1 h2

/-- `APPEND` with room appends the field and counts it. -/
theorem exec_append_room (hr : streamPos s + len.toNat ≤ streamRoom s) :
    ∃ t, Packed s len.toNat (v.toNat % 2 ^ len.toNat) t ∧ exec (.append len) s = .next (countField t) := by
  rw [execAppend_value he hv h1 h2]
  rcases appendValue_cases v hs h2 with ⟨-, h⟩ | ⟨hn, -⟩
  · exact h
  · omega

/-- `APPEND` without room appends what fits of the field and raises the error. -/
theorem exec_append_full (hr : streamRoom s < streamPos s + len.toNat) :
    ∃ t, Packed s (streamRoom s - streamPos s)
        ((v.toNat % 2 ^ len.toNat) >>> (streamPos s + len.toNat - streamRoom s)) t ∧
      exec (.append len) s = .next { t with err := .bufferOverflow } := by
  rw [execAppend_value he hv h1 h2]
  rcases appendValue_cases v hs h2 with ⟨hn, -⟩ | ⟨-, h⟩
  · omega
  · exact h

end

/-- Settles O42: with room the field is appended to the stream, and then `FIDX` counts it. -/
theorem appendAddsTheFieldToTheStream : Obligations.AppendAddsTheFieldToTheStream := by
  intro s len v hs he hv h1 h2 hr
  obtain ⟨t, ht, e⟩ := exec_append_room hs he hv h1 h2 hr
  exact ⟨countField t, e, ht.err.trans he, ht.val, by rw [countField_fidx, ht.fidx], ht.params, ht.host, ht.draws,
    ht.resets, ht.byteIndex, ht.bitOffset, fun j hj => ht.bit_field hj, fun p hp => ht.bit_before hp,
    fun p hlo hp => ht.bit_after hlo (by omega) h1, fun k hk => ht.byte_later (by omega), ht.byte_reserved⟩

/-- The data byte after the last block's is behind the reserved byte that would follow the buffer (R183). -/
theorem dataIndex_blocks (n : Nat) : dataIndex (31 * n) = 32 * n + 1 := by
  unfold dataIndex
  omega

/-- Settles O43: the bits that fit are appended up to the end of the room, which is where the cursor stops. -/
theorem appendOverflowsWithoutRoom : Obligations.AppendOverflowsWithoutRoom := by
  intro s len v hs he hv h1 h2 hr
  obtain ⟨t, ht, e⟩ := exec_append_full hs he hv h1 h2 hr
  have hroom : streamRoom s = 8 * (31 * s.params.nblk) := rfl
  have hend : streamPos s + (streamRoom s - streamPos s) = streamRoom s := Nat.add_sub_cancel' hs.streamPos_le
  have hb := ht.byteIndex
  have ho := ht.bitOffset
  rw [hend, hroom] at hb ho
  refine ⟨_, e, rfl, ht.val, ht.fidx, ?_, ?_, ht.params, ht.host, ht.draws, ht.resets, fun p hlo hhi => ?_,
    fun p hp => ht.bit_before hp⟩
  · calc t.byteIndex = dataIndex (31 * s.params.nblk) := by rw [hb, Nat.mul_div_cancel_left _ (by decide)]
      _ = s.bufSize + 1 := dataIndex_blocks _
  · exact ho.trans (Nat.mul_mod_right 8 _)
  · calc streamBit t p
        = (v.toNat % 2 ^ len.toNat).testBit (streamPos s + len.toNat - 1 - p) := by
          rw [ht.bit_appended hlo (by omega), Nat.testBit_shiftRight]
          congr 1
          omega
      _ = v.getLsbD (streamPos s + len.toNat - 1 - p) := testBit_field v (by omega)

/-- Settles O44: both append the low bits of `VAL`, and what appending given bits leaves is determined. -/
theorem appendEqualsBitSerial : Obligations.AppendEqualsBitSerial := by
  intro s len v hs he hv h1 h2 hr
  obtain ⟨t, ht, e⟩ := exec_append_room hs he hv h1 h2 hr
  rcases putBits_packs v len.toNat hs with ⟨-, u, hu, eu⟩ | ⟨hn, -⟩
  · cases ht.unique hu
    exact ⟨countField t, t, e, eu, rfl, rfl⟩
  · omega

/-- Settles O45: a legal `len` passes to the look at `VAL`, any other is refused first. -/
theorem appendRefusals : Obligations.AppendRefusals := by
  refine fun s len => ⟨fun h1 h2 he hv => ?_, fun h => ?_⟩ <;> rw [exec_append, execAppend]
  · rw [if_pos (decide_eq_true ⟨h1, h2⟩), unlessFaulted_running he, hv]
  · exact if_neg fun hl => by
      have := of_decide_eq_true hl
      omega

/-! ## `TERM` (R129, R132) -/

section
variable {s : State} (hs : s.Inv)
include hs

/-- The terminator's data byte is the first with no stream bit before the cursor. -/
theorem dataNumber_alignForTerm : dataNumber (alignForTerm s).byteIndex = (streamPos s + 7) / 8 := by
  have hm : s.byteIndex % 32 ≠ 0 := hs.notReserved
  have ho := bitOffset_lt s
  obtain ⟨-, -, hi, -⟩ := alignForTerm_spec hs
  rw [hi, streamPos_eq]
  split_ifs with h0
  · omega
  · have e := skip_succ_dataIndex (dataNumber s.byteIndex)
    rw [dataIndex_dataNumber hm] at e
    rw [e, dataNumber_dataIndex]
    omega

/-- R132: the terminator's byte is in the buffer exactly when the data bytes reach it. -/
theorem alignForTerm_lt_iff :
    (alignForTerm s).byteIndex < s.bufSize ↔ (streamPos s + 7) / 8 + 1 ≤ 31 * s.params.nblk := by
  obtain ⟨hu, -⟩ := alignForTerm_spec hs
  rw [bufSize_eq, ← dataNumber_lt hu.notReserved, dataNumber_alignForTerm hs]
  rfl

variable (he : s.err = .none)
include he

/-- `TERM` with a place for the terminator: what it writes and where the cursor goes. -/
theorem exec_term_fits (hT : (alignForTerm s).byteIndex < s.bufSize) :
    ∃ t, exec .term s = .next t ∧ t.buf = Memory.put s.buf (alignForTerm s).byteIndex 0xFF ∧
      t.byteIndex = skip ((alignForTerm s).byteIndex + 1) ∧ t.bitOffset = 0 ∧
      t = { s with cur := t.cur, buf := t.buf } := by
  obtain ⟨-, -, -, hr⟩ := alignForTerm_spec hs
  have hB := hs.bufSize_le
  rcases execTerm_cases hs he with ⟨-, e⟩ | ⟨hn, -⟩
  · refine ⟨_, e, ?_, ?_, ?_, ?_⟩
    · rw [hr]
      rfl
    · rw [advance, moveTo_byteIndex, setByte_byteIndex, Nat.mod_eq_of_lt]
      unfold skip
      split_ifs <;> omega
    · rw [advance, moveTo_bitOffset]
    · rw [hr]
      rfl
  · omega

/-- `TERM` without a place for the terminator. -/
theorem exec_term_full (hT : s.bufSize ≤ (alignForTerm s).byteIndex) :
    exec .term s = .next { s with cur := (alignForTerm s).cur, err := .bufferOverflow } := by
  obtain ⟨-, -, -, hr⟩ := alignForTerm_spec hs
  rcases execTerm_cases hs he with ⟨hn, -⟩ | ⟨-, e⟩
  · omega
  · rw [e, hr]

end

/-- Settles O46: the index `T` is that of the aligned cursor, and the byte there is the one `TERM` writes. -/
theorem termWritesTheTerminator : Obligations.TermWritesTheTerminator := by
  refine ⟨rfl, fun s h => if_neg h, fun s T hs he hT => ?_⟩
  obtain ⟨-, h0, hi, -⟩ := alignForTerm_spec hs
  rw [← hi] at hT
  subst hT
  refine ⟨fun hlt => ?_, fun hge => ⟨_, exec_term_full hs he hge, rfl, h0, rfl⟩⟩
  obtain ⟨t, e, hbuf, hb, ho, hr⟩ := exec_term_fits hs he hlt
  have hbyte : ∀ a, t.byte a = (s.setByte (alignForTerm s).byteIndex 0xFF).byte a := fun a => by
    rw [hr, hbuf]
    rfl
  refine ⟨t, e, ?_, fun a ha => ?_, hb, ho, hr⟩
  · rw [hbyte, byte_setByte, if_pos rfl]
  · rw [hbyte, byte_setByte, if_neg ha]

/-- Settles O49: without a place `TERM` records the error, and with one it leaves `ERR`. -/
theorem terminatorFitsByCapacity : Obligations.TerminatorFitsByCapacity := by
  intro s hs he
  rw [← alignForTerm_lt_iff hs]
  rcases lt_or_ge (alignForTerm s).byteIndex s.bufSize with hT | hT
  · obtain ⟨t, e, -, -, -, hr⟩ := exec_term_fits hs he hT
    exact ⟨t, e, iff_of_true (by rw [hr]; exact he) hT⟩
  · exact ⟨_, exec_term_full hs he hT, iff_of_false nofun (not_lt.mpr hT)⟩

/-! ## The reserved bytes (R130) -/

theorem exec_inv {i : Instr} {s t : State} (hs : s.Inv) (h : exec i s = .next t) : t.Inv := (exec_effect hs h).inv hs

section
variable {s t : State} (hs : s.Inv)
include hs

theorem execAppend_reserved {len : BitVec 6} (h : exec (.append len) s = .next t) (b : Nat) :
    Memory.get? t.buf (32 * b) = Memory.get? s.buf (32 * b) := by
  rcases execAppend_next h with ⟨v, -, hl, e⟩ | rfl
  · obtain ⟨L, x, w, -, hw, ht⟩ := appendValue_next hs hl e
    rw [ht]
    exact hw.get?_reserved b
  · rfl

theorem execTerm_reserved (h : exec .term s = .next t) (b : Nat) :
    Memory.get? t.buf (32 * b) = Memory.get? s.buf (32 * b) := by
  rcases unlessFaulted_next (show execTerm s = .next t from h) with ⟨he, -⟩ | ⟨-, rfl⟩
  · rcases lt_or_ge (alignForTerm s).byteIndex s.bufSize with hT | hT
    · obtain ⟨u, e, hbuf, -⟩ := exec_term_fits hs he hT
      obtain ⟨hu, -⟩ := alignForTerm_spec hs
      have hm : (alignForTerm s).byteIndex % 32 ≠ 0 := hu.notReserved
      cases h.symm.trans e
      rw [hbuf, Memory.get?_put, if_neg (by omega)]
    · cases h.symm.trans (exec_term_full hs he hT)
      rfl
  · rfl

end

/-- Settles O48: the cursor by the invariant, the bytes because appended bits and the terminator stand in data bytes. -/
theorem packerNeverWritesReservedBytes : Obligations.PackerNeverWritesReservedBytes := by
  intro s t i hs hi h
  refine ⟨(exec_inv hs h).notReserved, ?_⟩
  rcases hi with rfl | ⟨len, rfl⟩
  · exact execTerm_reserved hs h
  · exact execAppend_reserved hs h

/-! ## A whole pass (R131, R132, R166) -/

theorem fieldBits_cons (f : Word × BitVec 6) (fs : List (Word × BitVec 6)) :
    fieldBits (f :: fs) = f.2.toNat + fieldBits fs := by
  simp [fieldBits]

theorem runAll_cons_next {i : Instr} {is : List Instr} {s t : State} (h : exec i s = .next t) :
    runAll (i :: is) s = runAll is t := by
  simp only [runAll, h]

theorem runAll_append_next {is js : List Instr} {s t : State} (h : runAll is s = .next t) :
    runAll (is ++ js) s = runAll js t := by
  induction is generalizing s with
  | nil =>
    cases h
    rfl
  | cons i is ih =>
    cases e : exec i s with
    | next u =>
      rw [runAll_cons_next e] at h
      rw [List.cons_append, runAll_cons_next e, ih h]
    | fault r => simp [runAll, e] at h
    | refused r => simp [runAll, e] at h

/-- Reading fields back looks at no stream bit past the last field. -/
theorem readsBack_congr {t u : State} {p : Nat} {fs : List (Word × BitVec 6)}
    (h : ∀ q < p + fieldBits fs, streamBit u q = streamBit t q) (hr : readsBack t p fs) : readsBack u p fs := by
  induction fs generalizing p with
  | nil => trivial
  | cons f fs ih =>
    rw [fieldBits_cons] at h
    obtain ⟨hf, hfs⟩ := hr
    exact ⟨fun j hj => (h _ (by omega)).trans (hf j hj), ih (fun q hq => h q (by omega)) hfs⟩

/-- `t` is what packing the fields from `s` on leaves: they are read back at the cursor of `s`, the earlier stream bits
are as they were, and the cursor is behind the fields. -/
structure FieldsPacked (s : State) (fs : List (Word × BitVec 6)) (t : State) : Prop where
  inv : t.Inv
  err : t.err = .none
  params : t.params = s.params
  pos : streamPos t = streamPos s + fieldBits fs
  before : ∀ p < streamPos s, streamBit t p = streamBit s p
  reads : readsBack t (streamPos s) fs

theorem FieldsPacked.cons {s t u : State} {f : Word × BitVec 6} {fs : List (Word × BitVec 6)}
    (h : FieldsPacked s [f] t) (g : FieldsPacked t fs u) : FieldsPacked s (f :: fs) u := by
  obtain ⟨hf, -⟩ := h.reads
  have hpos : streamPos t = streamPos s + f.2.toNat := h.pos
  refine ⟨g.inv, g.err, g.params.trans h.params, ?_, fun p hp => ?_, fun j hj => ?_, ?_⟩
  · rw [g.pos, hpos, fieldBits_cons, Nat.add_assoc]
  · rw [g.before p (by omega), h.before p hp]
  · rw [g.before _ (by omega), hf j hj]
  · rw [← hpos]
    exact g.reads

section
variable {s : State} (hs : s.Inv) (he : s.err = .none)
include hs he

/-- One field: `LDV` and `APPEND`. -/
theorem runAll_field {f : Word × BitVec 6} (hf : 1 ≤ f.2.toNat ∧ f.2.toNat ≤ 32)
    (hr : streamPos s + f.2.toNat ≤ streamRoom s) :
    ∃ t, runAll [.ldv f.1, .append f.2] s = .next t ∧ FieldsPacked s [f] t := by
  have el := exec_ldv_running he f.1
  have hl := exec_inv hs el
  obtain ⟨t, ht, ea⟩ := exec_append_room hl he rfl hf.1 hf.2 hr
  refine ⟨countField t, ?_, exec_inv hl ea, ht.err.trans he, ht.params, ht.pos, fun p hp => ht.bit_before hp,
    fun j hj => ht.bit_field hj, trivial⟩
  rw [runAll_cons_next el, runAll_cons_next ea]
  rfl

/-- R166: the packing of fields that fit runs to its end. -/
theorem runAll_packing {fs : List (Word × BitVec 6)} (hl : ∀ f ∈ fs, 1 ≤ f.2.toNat ∧ f.2.toNat ≤ 32)
    (hr : streamPos s + fieldBits fs ≤ streamRoom s) :
    ∃ t, runAll (packing fs) s = .next t ∧ FieldsPacked s fs t := by
  induction fs generalizing s with
  | nil => exact ⟨s, rfl, hs, he, rfl, rfl, fun _ _ => rfl, trivial⟩
  | cons f fs ih =>
    rw [fieldBits_cons] at hr
    obtain ⟨hf, hfs⟩ := List.forall_mem_cons.mp hl
    obtain ⟨t, et, ht⟩ := runAll_field hs he hf (by omega)
    have hpos : streamPos t = streamPos s + f.2.toNat := ht.pos
    have hroom : streamRoom t = streamRoom s := by rw [streamRoom, streamRoom, ht.params]
    obtain ⟨u, eu, hu⟩ := ih ht.inv ht.err hfs (by omega)
    exact ⟨u, (runAll_append_next et).trans eu, ht.cons hu⟩

/-- R132: a terminator that fits leaves the stream bits before the cursor. -/
theorem exec_term_stream (hc : (streamPos s + 7) / 8 + 1 ≤ 31 * s.params.nblk) :
    ∃ t, exec .term s = .next t ∧ t.err = .none ∧ ∀ p < streamPos s, streamBit t p = streamBit s p := by
  obtain ⟨t, e, hbuf, -, -, hr⟩ := exec_term_fits hs he ((alignForTerm_lt_iff hs).mpr hc)
  refine ⟨t, e, by rw [hr]; exact he, fun p hp => ?_⟩
  have hne : dataIndex (p / 8) ≠ (alignForTerm s).byteIndex := fun h => by
    have hn := dataNumber_alignForTerm hs
    rw [← h, dataNumber_dataIndex] at hn
    omega
  rw [streamBit, streamBit, State.byte, State.byte, hbuf, Memory.get?_put, if_neg hne, hr]

end

/-- `CSUM` writes no stream bit (R150). -/
theorem streamBit_checksumPass (n : Nat) (s : State) (p : Nat) : streamBit (checksumPass n s) p = streamBit s p := by
  rw [streamBit, streamBit, checksumPass_byte, if_neg fun h => dataIndex_mod _ h.1]

/-- Settles O54: the packing leaves every field in the stream, and `TERM` and `CSUM` leave those stream bits. -/
theorem passReadsBackEveryField : Obligations.PassReadsBackEveryField := by
  intro s fs hs he hl hc
  have hroom : streamRoom s = 8 * (31 * s.params.nblk) := rfl
  obtain ⟨t, et, ht⟩ := runAll_packing hs he hl (by omega)
  obtain ⟨u, eu, hue, hu⟩ := exec_term_stream ht.inv ht.err (by rw [ht.pos, ht.params]; exact hc)
  refine ⟨checksumPass (highBlock u + 1) u, ?_, ?_, readsBack_congr (fun q hq => ?_) ht.reads⟩
  · rw [runAll_append_next et, runAll_cons_next eu, runAll_cons_next (execCsum_running hue)]
    rfl
  · rw [checksumPass_rest]
    exact hue
  · rw [streamBit_checksumPass, hu q (by rw [ht.pos]; exact hq)]

end Sys2Proof.Machine

namespace Sys2Proof.Machine

/-! ## The checksums of the blocks (R150 to R153) -/

/-- R150's `S_b`, as the sum over the block's data bytes. -/
theorem blockSum_eq_sum (s : State) (b : Nat) :
    blockSum s b = ∑ j ∈ Finset.range 31, (s.byte (32 * b + (j + 1))).toInt := rfl

/-- R150: the checksum is the negated sum, reduced modulo 256. -/
theorem blockChecksum_toNat (s : State) (b : Nat) : ((blockChecksum s b).toNat : ℤ) = -blockSum s b % 256 := by
  rw [blockChecksum, BitVec.toNat_ofInt]
  exact Int.toNat_of_nonneg (Int.emod_nonneg _ (by decide))

/-- A byte read as a signed number is the byte modulo 256. -/
theorem byte_toInt_modEq (x : Byte) : x.toInt ≡ x.toNat [ZMOD 256] := by
  rw [BitVec.toInt_eq_toNat_bmod]
  exact Int.bmod_emod

/-- The pass writes the reserved bytes of the blocks it covers. -/
theorem checksumPass_byte_reserved {n b : Nat} (h : b < n) (s : State) :
    (checksumPass n s).byte (32 * b) = blockChecksum s b := by
  rw [checksumPass_byte, if_pos (by omega), Nat.mul_div_cancel_left b (by decide)]

/-- The pass leaves every byte but the reserved bytes of the blocks it covers. -/
theorem checksumPass_byte_other {n a : Nat} (h : ∀ b < n, a ≠ 32 * b) (s : State) :
    (checksumPass n s).byte a = s.byte a := by
  rw [checksumPass_byte, if_neg fun ⟨hm, hd⟩ => h _ hd (by omega)]

/-- R152: a covered block's checksum and data bytes cancel, whether the data bytes are read signed or not. -/
theorem checksumPass_block_sum {n b : Nat} (h : b < n) (s : State) :
    (∑ j ∈ Finset.range 32, ((checksumPass n s).byte (32 * b + j)).toNat) % 256 = 0 := by
  have hdata : ∀ j ∈ Finset.range 31,
      (checksumPass n s).byte (32 * b + (j + 1)) = s.byte (32 * b + (j + 1)) := fun j hj =>
    checksumPass_byte_other (fun c _ => by have := Finset.mem_range.mp hj; omega) s
  have hsum : blockSum s b ≡ ((∑ j ∈ Finset.range 31, (s.byte (32 * b + (j + 1))).toNat : ℕ) : ℤ) [ZMOD 256] := by
    rw [blockSum_eq_sum, Nat.cast_sum]
    exact Int.ModEq.sum fun j _ => byte_toInt_modEq _
  have hcheck := blockChecksum_toNat s b
  rw [Finset.sum_range_succ', Nat.add_zero, checksumPass_byte_reserved h,
    Finset.sum_congr rfl fun j hj => congrArg BitVec.toNat (hdata j hj)]
  unfold Int.ModEq at hsum
  omega

/-- The pass leaves the cursor and the parameters, and so the blocks that `CSUM` covers. -/
theorem highBlock_checksumPass (n : Nat) (s : State) : highBlock (checksumPass n s) = highBlock s := by
  rw [checksumPass_rest]
  rfl

/-- R151: every block with a byte of `BUF` before the cursor is covered. -/
theorem div_block_le_highBlock {s : State} {i : Nat} (hi : i < s.bufSize) (hc : i < s.byteIndex) :
    i / 32 ≤ highBlock s := by
  unfold State.bufSize at hi
  unfold highBlock Config.block at *
  omega

theorem execCsum_faulted {s : State} (h : s.err ≠ .none) : exec .csum s = .next s := if_neg h

/-- Settles O50: the reserved bytes of the covered blocks get the checksums, and the pass writes nothing else. -/
theorem csumWritesTheChecksums : Obligations.CsumWritesTheChecksums := by
  refine ⟨rfl, fun _ => execCsum_faulted, ?_⟩
  rintro s HB - he (rfl : HB = highBlock s)
  refine ⟨checksumPass (highBlock s + 1) s, execCsum_running he, checksumPass_rest _ s, fun b hb => ?_, fun a ha => ?_⟩
  · rw [checksumPass_byte_reserved (Nat.lt_succ_of_le hb), blockChecksum_toNat, blockSum_eq_sum]
  · exact checksumPass_byte_other (fun b hb => ha b (Nat.le_of_lt_succ hb)) s

/-- Settles O51: the 32 bytes of a covered block cancel, and the cursor's own block or the last one is covered. -/
theorem checksummedBlocksSumToZero : Obligations.ChecksummedBlocksSumToZero := by
  rintro s t HB - he (rfl : HB = highBlock s) h
  obtain rfl : checksumPass (highBlock s + 1) s = t := Host.Outcome.next.inj ((execCsum_running he).symm.trans h)
  exact ⟨fun b hb => checksumPass_block_sum (Nat.lt_succ_of_le hb) s, fun i => div_block_le_highBlock⟩

/-- Settles O52: the second pass covers the same blocks and reads the same data bytes. -/
theorem csumIsIdempotent : Obligations.CsumIsIdempotent := by
  intro s t hs h
  rcases unlessFaulted_next (show execCsum s = .next t from h) with ⟨he, e⟩ | ⟨-, rfl⟩
  · obtain rfl : checksumPass (highBlock s + 1) s = t := Host.Outcome.next.inj e
    rw [execCsum_running (by rw [checksumPass_rest]; exact he), highBlock_checksumPass,
      checksumPass_twice _ hs.canonical]
  · exact h

end Sys2Proof.Machine

namespace Sys2Proof.Machine

/-! ## Commands under a recorded error, and `FILL` (R161, R165, R188) -/

/-- R188: every command but `FILL` begins with the same line; `APPEND` reaches it with a legal length only (R58). -/
theorem exec_faulted {i : Instr} {s : State} (hw : i.wf = true) (hi : i ≠ .fill) (h : s.err ≠ .none) :
    exec i s = .next s := by
  cases i with
  | fill => exact absurd rfl hi
  | append len => exact (if_pos hw).trans (unlessFaulted_faulted h _)
  | crst | ldv | term | csum => exact if_neg h
  | cvtUnint | cvtChr5 | cvtDate | cvtConres | cvtConrelres | cvtSingle | cvtUnrec => exact exec_convert_faulted rfl h

/-- Settles O17: `FILL` tests no error and moves only `BUF` and `ERR`; every other command stops at R188's line. -/
theorem fillWritesThePattern : Obligations.FillWritesThePattern :=
  ⟨rfl, fun s => ⟨clearErr (filled s), rfl, rfl, rfl, rfl, rfl, rfl, rfl, rfl, rfl, fun _ => filled_byte⟩,
    fun _ _ => exec_faulted⟩

/-- Settles O55, by induction on the sequence: its first command is inert, so the rest starts in the same state. -/
theorem restOfAFaultedPassIsInert : Obligations.RestOfAFaultedPassIsInert := by
  intro is s hall h
  induction is with
  | nil => rfl
  | cons i is ih =>
    obtain ⟨⟨hw, hi⟩, hrest⟩ := List.forall_mem_cons.mp hall
    rw [runAll_cons_next (exec_faulted hw hi h)]
    exact ih hrest

/-! ## Conversion ahead of packing (R166) -/

/-- Settles O53: a conversion that completes without an error moves nothing but `VAL` and the counter of draws. -/
theorem convertedAheadOfPacking : Obligations.ConvertedAheadOfPacking := by
  intro i s t hi hs h ht
  rcases convert_cases hi hs with ⟨v, d, e, -⟩ | ⟨err, herr, e⟩ | ⟨e, -⟩
  · obtain rfl := Host.Outcome.next.inj (e.symm.trans h)
    exact ⟨v, rfl, exec_ldv_running hs v⟩
  · obtain rfl := Host.Outcome.next.inj (e.symm.trans h)
    exact absurd ht herr
  · exact nomatch e.symm.trans h

end Sys2Proof.Machine

namespace Sys2Proof.Machine

/-! ## Errors and what they leave (R186 to R189) -/

/-- Settles O8: R188's line stands first in every command but `FILL`. -/
theorem faultedCommandsAreInert : Obligations.FaultedCommandsAreInert := fun _ _ => exec_faulted

/-- Settles O38: under a recorded error a conversion is inert; otherwise it writes `VAL` and leaves `ERR` at `NONE`, or
writes `ERR` alone. -/
theorem conversionErrorsArePrecise : Obligations.ConversionErrorsArePrecise := by
  intro i s t hi h ht
  by_cases hs : s.err = .none
  · rcases exec_convert_next hi h with ⟨v, d, rfl, -⟩ | ⟨e, -, rfl⟩ | rfl
    · exact absurd hs ht
    · rfl
    · rfl
  · obtain rfl := Host.Outcome.next.inj (h.symm.trans (exec_convert_faulted hi hs))
    rfl

/-- R58: a command that the CORE takes from the host is well-formed, as every decoded command is. -/
theorem fetchFrom_command_wf {s : State} {acts : List HostAct} {i : Instr} (h : (fetchFrom s acts).1 = .command i) :
    i.wf = true := by
  induction acts with
  | nil => exact nomatch h
  | cons a acts ih =>
    cases a with
    | reset => exact nomatch h
    | send bytes =>
      cases bytes with
      | nil => exact ih h
      | cons b bs =>
        rw [fetchFrom] at h
        cases hd : decode (b :: bs) with
        | error why => simp [hd] at h
        | ok p =>
          obtain ⟨j, rest⟩ := p
          obtain rfl : j = i := by simpa [hd] using h
          exact (decodedBytesAreAnEncoding _ _ _ hd).1

theorem fetch_command_wf {s : State} {i : Instr} (h : (fetch s).1 = .command i) : i.wf = true := fetchFrom_command_wf h

/-- Settles O9: waiting keeps `ERR`, and so does every command but `FILL`, which is inert under an error. -/
theorem onlyFillAndResetClearErrors : Obligations.OnlyFillAndResetClearErrors := by
  intro s t h hs ht
  obtain ⟨acts, ⟨-, rfl⟩ | ⟨hf, -⟩ | ⟨i, hf, e⟩⟩ := step_next h
  · exact absurd ht hs
  · exact .inr hf
  · by_cases hi : i = .fill
    · exact .inl (hi ▸ hf)
    · obtain rfl := Host.Outcome.next.inj (e.symm.trans (exec_faulted (fetch_command_wf hf) hi hs))
      exact absurd ht hs

/-! ## The read port (R187, R196) -/

theorem readPort_faulted {s : State} (h : s.err ≠ .none) : readPort s = none := if_neg h

theorem readPort_running {s : State} (h : s.err = .none) : readPort s = some (bufBytes s) := if_pos h

@[simp] theorem bufBytes_length (s : State) : (bufBytes s).length = s.bufSize := by simp [bufBytes]

theorem bufBytes_getElem? {s : State} {i : Nat} (h : i < s.bufSize) : (bufBytes s)[i]? = some (s.byte i) := by
  simp [bufBytes, h]

/-- Settles O58: the port is closed under an error, and gives `bufBytes` otherwise. -/
theorem readPortGivesTheBuffer : Obligations.ReadPortGivesTheBuffer := fun s =>
  ⟨readPort_faulted, fun h => ⟨bufBytes s, readPort_running h, bufBytes_length s, fun _ => bufBytes_getElem?⟩⟩

end Sys2Proof.Machine

namespace Sys2Proof.Machine

/-! ## A reset between commands, and a CORE to which nothing is sent (R24, R210) -/

/-- R210: a reset that stands next among the host's acts takes effect, and the later acts stay. -/
theorem step_resetAct (s : State) (acts : List HostAct) :
    step { s with host := .reset :: acts } = .next (hardReset { s with host := acts }) := rfl

theorem fetch_idle {s : State} (h : s.host = []) : fetch s = (.nothing, s) := by
  cases s
  cases h
  rfl

theorem step_idle {s : State} (h : s.host = []) : step s = .next s := by
  rw [step, fetch_idle h]

/-- Settles O5: a reset act leads to `hardReset`, whose registers R24 gives, and with no act the CORE waits. -/
theorem stepResetsAndWaits : Obligations.StepResetsAndWaits := fun s =>
  ⟨fun acts => ⟨_, step_resetAct s acts, hardReset_val _, hardReset_fidx _, hardReset_cur _, hardReset_err _,
    hardReset_buf _, hardReset_host _, hardReset_params _⟩, step_idle⟩

end Sys2Proof.Machine
